-- ==== Sys2Proof/Word.lean ====
section
/-! DEFINITION. The data words of the block: 32-bit words, bytes, sixteen-word states and the sixteen-row block files
(00_scope R5, R7; 10_state R10, R17). -/

namespace Sys2Proof

/-- A data word: 32 bits, unsigned (00_scope R5, R7). Its sum `+` is the spec's `+32` and its `^^^` the spec's `^`. -/
abbrev Word := BitVec 32

/-- A byte of the keystream buffer space (20_memory R30). -/
abbrev Byte := BitVec 8

/-- Sixteen words: a cipher state, a working block or an output block (00_scope R5, NWORDS). -/
abbrev Block := Vector Word 16

/-- A file of sixteen blocks, the shape of `W` and of `ORIG` (10_state R17, R18). -/
abbrev BlockFile := Vector Block 16

end Sys2Proof
end

