-- ==== Sys2Proof/Syntax.lean ====
section
/-! DEFINITION. The operations of the block, one constructor per row of `spec/opcode_table.json`, and the packets that
carry them in the six formats of 30_encoding R45. -/

namespace Sys2Proof

/-- The tiers of 30_encoding R47. Code 3 is illegal and is no tier (10_state R13: "TIERL = 3 never occurs"). -/
inductive Tier where
  | narrow
  | medium
  | wide
  deriving DecidableEq, Repr

/-- The operations. Register and site numbers are plain numbers here; `Instr.wellFormed` holds their bounds. -/
inductive Instr where
  | genN                              -- GEN.N, R61
  | genM                              -- GEN.M, R62
  | genW                              -- GEN.W, R63
  | wrS (j : Nat) (v : Word)          -- WR.S j, v, R101
  | wrCap (v : Word)                  -- WR.CAP v, R102
  | wrCmd (c : Word)                  -- WR.CMD c, R103
  | rdStatus                          -- RD.STATUS, R104
  | rdBytes                           -- RD.BYTES, R105
  | rdS (j : Nat)                     -- RD.S j, R106
  | rdCap                             -- RD.CAP, R107
  | rdKs (off : Word)                 -- RD.KS off, R108
  | repl                              -- REPL, R71
  | colround                          -- COLROUND, R79
  | diaground                         -- DIAGROUND, R80
  | finalAdd                          -- FINAL, R91
  | ser                               -- SER, R95
  | qr (h q : Nat)                    -- QR at site h q, R78, R51
  | reset                             -- RESET, R126
  deriving DecidableEq, Repr

/-- What stands on the block's interface for one move, in one of the six formats of 30_encoding R45. CMD, HOST, KS and
EVENT packets are the host's, UOP and QRSEL packets the core's. `bus` is a register access as a bus would bring it, with
any offset and any width in bits: it says the accesses R109 leaves undefined, and the defined ones are those of `host`. -/
inductive Packet where
  | cmd (word : Word)
  | host (code : BitVec 8) (data : Word)
  | ks (offset : Word)
  | uop (code : BitVec 3)
  | qrsel (site : BitVec 3)
  | event (bit : BitVec 1)
  | bus (write : Bool) (offset width data : Nat)
  deriving DecidableEq, Repr

/-- Why a packet is no operation (45_host_access R109, 30_encoding R50, R56). -/
inductive DecodeError where
  /-- A register offset that is not a multiple of 4 (R109). -/
  | offsetNotAligned
  /-- An offset 0x50 to 0x7C (R109). -/
  | reservedOffset
  /-- An offset above 0x7F (R109). -/
  | offsetAboveMap
  /-- A write of STATUS or BYTES (R109). -/
  | writeOfReadOnly
  /-- A read of CMD (R109). -/
  | readOfWriteOnly
  /-- A register access narrower or wider than 32 bits (R109). -/
  | wrongWidth
  /-- A UOP code of a resting position, 0, 6 or 7, in which the core has no operation (R50). -/
  | restingPosition
  /-- The reset input at 0, which is no event (R48). -/
  | noEvent
  deriving DecidableEq, Repr

end Sys2Proof
end

