-- ==== Sys2Proof/Config.lean ====
section
/-! DEFINITION. What is fixed for the machine: the counter-delta tables (10_state R20), and the free values, which the
spec leaves open (93_implementation_defined U10 to U12). A free value is an opaque constant with no body: nothing in Lean
can prove what it is. -/

namespace Sys2Proof.Config

/-- The deltas of the Narrow tier, wired (10_state R20: "its deltas 0 and 1 are wired"). -/
def deltaN : Vector Word 2 := #v[0, 1]

/-- `DELTA_M`, ROM (10_state R20). -/
def deltaM : Vector Word 4 := #v[0, 1, 2, 3]

/-- `DELTA_W`, ROM (10_state R20). -/
def deltaW : Vector Word 16 := #v[0, 1, 2, 3, 4, 5, 6, 7, 8, 9, 10, 11, 12, 13, 14, 15]

/-- The entry for block `i` of the tier's table; 0 past its end, where no block is. -/
def delta (t : Tier) (i : Nat) : Word :=
  match t with
  | .narrow => (deltaN[i]?).getD 0
  | .medium => (deltaM[i]?).getD 0
  | .wide => (deltaW[i]?).getD 0

/-- FREE VALUE (log 6): what a file `W` or `ORIG` that "holds no value" (10_state R28, U10) is found to hold, by `launch`
and by number drawn. That one function serves every instance, so that two states that agree in both fields agree in these
values, is the model's choice. DESIGN CHOICE, safe. -/
opaque freeBlocks : Nat → Nat → BlockFile

/-- FREE VALUE (log 7, 8): a buffer byte no command has written (U11: "any value, fixed by the launch state") or that a
command abandoned by RESET has left invalid (70_reset_and_hazards R126, U12: "any value; no claim may rest on it"), by `launch`,
`epoch` and offset. That one function serves every instance, so that two states that agree in both fields agree in these bytes,
is the model's choice. DESIGN CHOICE, safe. -/
opaque bufferByte : Nat → Nat → Nat → Byte

end Sys2Proof.Config
end

