-- ==== Sys2Proof/WellFormed.lean ====
section
/-! DEFINITION. The operand bounds an operation must meet: `j` in 0..15 (45_host_access R101, R106), `h` in 0..1 and
`q` in 0..3 (30_encoding R51). Every 32-bit operand is legal (10_state R12, R14; 45_host_access R103, R108). -/

namespace Sys2Proof

/-- The operand bounds of one operation. -/
def Instr.wellFormed : Instr → Bool
  | .genN => true
  | .genM => true
  | .genW => true
  | .wrS j _ => decide (j < 16)
  | .wrCap _ => true
  | .wrCmd _ => true
  | .rdStatus => true
  | .rdBytes => true
  | .rdS j => decide (j < 16)
  | .rdCap => true
  | .rdKs _ => true
  | .repl => true
  | .colround => true
  | .diaground => true
  | .finalAdd => true
  | .ser => true
  | .qr h q => decide (h < 2) && decide (q < 4)
  | .reset => true

end Sys2Proof
end

