-- ==== Sys2Proof/Decode.lean ====
section
/-! DEFINITION. From packets to operations and back (30_encoding.md). `decode` is total and refuses by name; `encode`
gives the packet of an operation; `decodeTableWord` reads a word of `spec/opcode_table.json`. -/

namespace Sys2Proof

/-- The three legal command words (30_encoding R46). -/
def commandTier (c : Word) : Option Tier :=
  if c = 0x00000100#32 then some .narrow
  else if c = 0x00000101#32 then some .medium
  else if c = 0x00000102#32 then some .wide
  else none

/-- A word in format CMD: one of the three mnemonics, else a write of the command port with that word, which is what
R111 faults (30_encoding R46, R56). -/
def decodeCmd (c : Word) : Instr :=
  match commandTier c with
  | some .narrow => .genN
  | some .medium => .genM
  | some .wide => .genW
  | none => .wrCmd c

/-- Field `j` of a HOST code: `code[5:2]`, unsigned (30_encoding R48, R57). -/
def hostIndex (code : BitVec 8) : Nat := ((code >>> 2) &&& 0x0F#8).toNat

/-- A HOST code with its data word: the register map of 30_encoding R48, and the undefined accesses of R56 and R109 by
name. -/
def decodeHost (code : BitVec 8) (data : Word) : Except DecodeError Instr :=
  if code &&& 0x03#8 ≠ 0#8 then .error .offsetNotAligned
  else if code &&& 0xC3#8 = 0x80#8 then .ok (.wrS (hostIndex code) data)
  else if code &&& 0xC3#8 = 0x00#8 then .ok (.rdS (hostIndex code))
  else if code = 0xC0#8 then .ok (.wrCap data)
  else if code = 0x40#8 then .ok .rdCap
  else if code = 0xC4#8 then .ok (.wrCmd data)
  else if code = 0x44#8 then .error .readOfWriteOnly
  else if code = 0x48#8 then .ok .rdStatus
  else if code = 0xC8#8 then .error .writeOfReadOnly
  else if code = 0x4C#8 then .ok .rdBytes
  else if code = 0xCC#8 then .error .writeOfReadOnly
  else .error .reservedOffset

/-- The HOST code of a direction and an offset: `d ++ offset[6:0]` (30_encoding R48). -/
def hostCode (write : Bool) (offset : Nat) : BitVec 8 :=
  BitVec.ofBool write ++ BitVec.ofNat 7 offset

/-- A register access of any offset and width (45_host_access R109): the defined ones are those of HOST codes. -/
def decodeBus (write : Bool) (offset width data : Nat) : Except DecodeError Instr :=
  if width ≠ 32 then .error .wrongWidth
  else if 0x80 ≤ offset then .error .offsetAboveMap
  else decodeHost (hostCode write offset) (BitVec.ofNat 32 data)

/-- A UOP code: the operation the core performs in that PHASE (30_encoding R50). -/
def decodeUop (code : BitVec 3) : Except DecodeError Instr :=
  if code = 1#3 then .ok .repl
  else if code = 2#3 then .ok .colround
  else if code = 3#3 then .ok .diaground
  else if code = 4#3 then .ok .finalAdd
  else if code = 5#3 then .ok .ser
  else .error .restingPosition

/-- A quarter-round site `h ++ q[1:0]` (30_encoding R51). -/
def decodeSite (site : BitVec 3) : Instr :=
  .qr (site >>> 2).toNat (site &&& 3#3).toNat

/-- The operation of a packet, or the name of what is wrong with it. -/
def decode : Packet → Except DecodeError Instr
  | .cmd c => .ok (decodeCmd c)
  | .host code data => decodeHost code data
  | .ks off => .ok (.rdKs off)
  | .uop code => decodeUop code
  | .qrsel site => .ok (decodeSite site)
  | .event b => if b = 1#1 then .ok .reset else .error .noEvent
  | .bus write offset width data => decodeBus write offset width data

/-- The packet of an operation, from the tables of 30_encoding R46, R48, R50, R51 and R58. -/
def encode : Instr → Packet
  | .genN => .cmd 0x00000100#32
  | .genM => .cmd 0x00000101#32
  | .genW => .cmd 0x00000102#32
  | .wrS j v => .host (BitVec.ofNat 8 (0x80 + 4 * j)) v
  | .wrCap v => .host 0xC0#8 v
  | .wrCmd c => .host 0xC4#8 c
  | .rdStatus => .host 0x48#8 0#32
  | .rdBytes => .host 0x4C#8 0#32
  | .rdS j => .host (BitVec.ofNat 8 (4 * j)) 0#32
  | .rdCap => .host 0x40#8 0#32
  | .rdKs off => .ks off
  | .repl => .uop 1#3
  | .colround => .uop 2#3
  | .diaground => .uop 3#3
  | .finalAdd => .uop 4#3
  | .ser => .uop 5#3
  | .qr h q => .qrsel (BitVec.ofNat 3 (4 * h + q))
  | .reset => .event 1#1

/-- The packet an 8-bit table word stands for: a HOST code where it is one, else a UOP code, else a site (log 13). -/
def tableByte (w : Nat) : Packet :=
  match decodeHost (BitVec.ofNat 8 w) 0#32 with
  | .ok _ => .host (BitVec.ofNat 8 w) 0#32
  | .error _ =>
    match decodeUop (BitVec.ofNat 3 w) with
    | .ok _ => if w < 8 then .uop (BitVec.ofNat 3 w) else .host (BitVec.ofNat 8 w) 0#32
    | .error _ => if w < 8 then .qrsel (BitVec.ofNat 3 w) else .host (BitVec.ofNat 8 w) 0#32

/-- The packet a word of `nbits` bits of the opcode table stands for. The table's formats share widths, so the width and
the word choose the format in the table's order (log 13): 32 bits are a legal command word, else a KS offset; 8 bits are
`tableByte`; 3 bits are a UOP code, else a site; 1 bit is the event; any other width is a HOST code with its data word
above it. -/
def tablePacket (nbits w : Nat) : Packet :=
  if nbits = 32 then
    match commandTier (BitVec.ofNat 32 w) with
    | some _ => .cmd (BitVec.ofNat 32 w)
    | none => .ks (BitVec.ofNat 32 w)
  else if nbits = 8 then tableByte w
  else if nbits = 3 then
    match decodeUop (BitVec.ofNat 3 w) with
    | .ok _ => .uop (BitVec.ofNat 3 w)
    | .error _ => .qrsel (BitVec.ofNat 3 w)
  else if nbits = 1 then .event (BitVec.ofNat 1 w)
  else .host (BitVec.ofNat 8 w) (BitVec.ofNat 32 (w / 256))

/-- The operation `decode` reads from a word of the opcode table, `none` where it refuses. -/
def decodeTableWord (nbits w : Nat) : Option Instr :=
  match decode (tablePacket nbits w) with
  | .ok i => some i
  | .error _ => none

/-- `LDSTATE w0, ..., w15` (30_encoding R58): the sixteen `WR.S`, in ascending order. -/
def expandLdstate (ws : Block) : List Instr :=
  (List.finRange 16).map fun j => .wrS j.val ws[j]

/-- `WAIT` that finds the block busy `polls` times and then finds BUSY = 0 (30_encoding R58): one more read of STATUS than
that. How often the host polls is the host's, so it is an argument (log 21). -/
def expandWait (polls : Nat) : List Instr := List.replicate (polls + 1) .rdStatus

/-- `GENERATE t` (30_encoding R58): the command, the wait, the read of the byte count. -/
def expandGenerate (t : Tier) (polls : Nat) : List Instr :=
  (match t with
    | .narrow => .genN
    | .medium => .genM
    | .wide => .genW) :: (expandWait polls ++ [.rdBytes])

/-- `RD.KSW off` (30_encoding R58): four byte reads. -/
def expandRdKsw (off : Word) : List Instr :=
  [.rdKs off, .rdKs (off + 1), .rdKs (off + 2), .rdKs (off + 3)]

/-- The word `RD.KSW` makes of the four bytes it read, joined little-endian (30_encoding R58). -/
def joinBytes (b0 b1 b2 b3 : Byte) : Word := b3 ++ b2 ++ b1 ++ b0

end Sys2Proof
end

