-- ==== Sys2Proof/Machine/State.lean ====
section
/-! DEFINITION. The state of one instance of the block as plain data, its value after reset, and why a step can stop
(10_state.md, 70_reset_and_hazards R126). -/

namespace Sys2Proof.Machine

/-- PHASE, the sequencer's position, in place of a program counter (10_state R15). Codes: 30_encoding R50, `phaseCode`. -/
inductive Phase where
  | idle
  | repl
  | col
  | diag
  | final
  | ser
  | done
  | fault
  deriving DecidableEq, Repr

/-- The three contract faults (60_exceptions R110). Codes: 30_encoding R55, `faultCode`. Taking one is a
next state (R113), no `Fault` of the machine. -/
inductive ContractFault where
  | eCmd
  | eState
  | eBuffer
  deriving DecidableEq, Repr

/-- What the last host read returned: MODEL's own, the host's view of the data it got (log 10). -/
inductive Reply where
  | none
  | word (v : Word)
  | byte (b : Byte)
  deriving DecidableEq, Repr

/-- One move to come: the core's next internal operation, or a packet (log 1). MODEL's own. -/
inductive Turn where
  | core
  | packet (p : Packet)
  deriving DecidableEq, Repr

/-- The keystream buffer space KS: (offset, byte) pairs, offsets strictly rising, one pair for each byte that holds a
value written to it (20_memory R30). An unlisted offset holds no value here; what a host read of it returns is a free byte
(log 7, 8). -/
abbrev Memory := List Host.Cell

/-- The machine never stops with a fault: the contract faults of 60_exceptions R110 are entered as next states (R113),
R110 says "No internal operation ... can fault, for any value of any state", and what the spec tells a model to refuse is
a `Refusal`. So there is no constructor (log 16). -/
inductive Fault where
  deriving DecidableEq, Repr

/-- Why a move has no meaning. -/
inductive Refusal where
  /-- Raised by an arm of `exec` whose instruction has no meaning yet. Safe: the machine stops. -/
  | notModelled (mnemonic : String)
  /-- Raised by `step` on a packet that is no operation (R109, R56). Safe: the machine stops where the spec gives no
  meaning and says "a model refuses them". -/
  | undefinedAccess (e : DecodeError)
  /-- Raised by every host access but RD.STATUS and RESET while BUSY (R100: "the host has no such move"; "A model that
  wants to err toward unprovable may instead mark any such access as a refusal"). Safe. -/
  | hostAccessWhileBusy
  /-- Raised by an internal operation in a PHASE that is not its own: the core has no such step (R64). Safe. -/
  | outOfPhase
  /-- Raised by QR at a site of the round in progress that has been applied already (log 11). Safe. -/
  | siteAlreadyDone
  /-- Raised by RD.S j when SV[j] = 0 (R106: "a model refuses it and does not return zero or any other number"). Safe. -/
  | unwrittenStateWord
  /-- Raised by RD.KS off when off >= OUT_CAP (R108, R109: "a model refuses them"). Safe. -/
  | keystreamOffsetOutOfRange
  /-- Raised by an operation whose operands are not well-formed, which no packet decodes to. Safe. -/
  | illFormed
  deriving DecidableEq, Repr

/-- Everything the spec gives one instance of the block, and the model's own last six fields. -/
structure State where
  /-- `S[0..15]` (10_state R10). -/
  sReg : Block
  /-- `SV[0..15]` (10_state R11). -/
  sv : Vector Bool 16
  /-- `OUT_CAP` (10_state R12). -/
  outCap : Word
  /-- `TIERL` (10_state R13). -/
  tierl : Tier
  /-- `PHASE` (10_state R15). -/
  phase : Phase
  /-- `RND` (10_state R16). -/
  rnd : BitVec 4
  /-- `ERRCODE` (10_state R19). -/
  errcode : BitVec 4
  /-- `BYTES` (10_state R21). -/
  bytes : Word
  /-- `W[i][j]` (10_state R17). -/
  w : BlockFile
  /-- `ORIG[i][j]` (10_state R18). -/
  orig : BlockFile
  /-- `KS` (20_memory R30). -/
  ks : Memory
  /-- MODEL's own: the sites of the round in progress that QR steps have applied (log 11). -/
  sitesDone : Vector Bool 4
  /-- MODEL's own: the result of the last host read (log 10). -/
  reply : Reply
  /-- MODEL's own: the moves to come, the next one first (log 1). -/
  turns : List Turn
  /-- MODEL's own: how many free values have been drawn for W and ORIG (log 6). -/
  draws : Nat
  /-- MODEL's own: which launch this is. The free values of different launches are unrelated (log 7). -/
  launch : Nat
  /-- MODEL's own: how many commands RESET has abandoned. Each leaves the buffer with other free bytes (log 8). -/
  epoch : Nat
  deriving DecidableEq, Repr

/-- The machine right after reset (10_state R26, 70_reset_and_hazards R126): PHASE IDLE, RND, ERRCODE, BYTES, OUT_CAP 0,
SV all 0. For S, TIERL, W and ORIG the spec gives no value: 0 and Narrow are DESIGN CHOICES (log 3, 4, 5), unsafe. -/
def State.reset : State where
  sReg := Vector.replicate 16 0#32
  sv := Vector.replicate 16 false
  outCap := 0#32
  tierl := .narrow
  phase := .idle
  rnd := 0#4
  errcode := 0#4
  bytes := 0#32
  w := Vector.replicate 16 (Vector.replicate 16 0#32)
  orig := Vector.replicate 16 (Vector.replicate 16 0#32)
  ks := []
  sitesDone := Vector.replicate 4 false
  reply := .none
  turns := []
  draws := 0
  launch := 0
  epoch := 0

end Sys2Proof.Machine
end

