-- ==== Sys2Proof/Machine/Flags.lean ====
section
/-! DEFINITION. PHASE codes, the status flags and the STATUS word (10_state R19, 30_encoding R49, R50), and the fault codes
(30_encoding R55). The block has no arithmetic flags (10_state R19). -/

namespace Sys2Proof.Machine

/-- The 3-bit code of a PHASE (30_encoding R50). -/
def phaseCode : Phase → BitVec 3
  | .idle => 0#3
  | .repl => 1#3
  | .col => 2#3
  | .diag => 3#3
  | .final => 4#3
  | .ser => 5#3
  | .done => 6#3
  | .fault => 7#3

/-- The PHASE of a 3-bit code (30_encoding R50: "all eight used", R56). -/
def phaseOfCode (c : BitVec 3) : Phase :=
  if c = 0#3 then .idle
  else if c = 1#3 then .repl
  else if c = 2#3 then .col
  else if c = 3#3 then .diag
  else if c = 4#3 then .final
  else if c = 5#3 then .ser
  else if c = 6#3 then .done
  else .fault

/-- BUSY: a command is in execution (10_state R19). -/
def busyFlag : Phase → Bool
  | .idle => false
  | .repl => true
  | .col => true
  | .diag => true
  | .final => true
  | .ser => true
  | .done => false
  | .fault => false

/-- DONE (10_state R19). -/
def doneFlag (p : Phase) : Bool := decide (p = .done)

/-- ERR (10_state R19). -/
def errFlag (p : Phase) : Bool := decide (p = .fault)

/-- The fault code a contract fault writes to ERRCODE (30_encoding R55). -/
def faultCode : ContractFault → BitVec 4
  | .eCmd => 1#4
  | .eState => 2#4
  | .eBuffer => 3#4

/-- The STATUS word: 31:8 zero, 7:4 ERRCODE, 3 zero, 2 ERR, 1 DONE, 0 BUSY (30_encoding R49). -/
def statusWord (s : State) : Word :=
  0#24 ++ s.errcode ++ 0#1 ++ BitVec.ofBool (errFlag s.phase) ++ BitVec.ofBool (doneFlag s.phase)
    ++ BitVec.ofBool (busyFlag s.phase)

end Sys2Proof.Machine
end

