-- ==== Sys2Proof/Machine/Operands.lean ====
section
/-! DEFINITION. The operand forms: the tier and what it selects (30_encoding R47, R57), the quarter-round sites
(30_encoding R51), rows of a block file, the counter offset `S@i` (40_generate_command R69). -/

namespace Sys2Proof.Machine

/-- The 2-bit code of a tier, as TIERL and field TIER hold it (30_encoding R47). -/
def tierCode : Tier → BitVec 2
  | .narrow => 0#2
  | .medium => 1#2
  | .wide => 2#2

/-- `N(tier)`, blocks per command (10_state R13, 30_encoding R47). -/
def blockCount : Tier → Nat
  | .narrow => 2
  | .medium => 4
  | .wide => 16

/-- `N*64`, bytes per command, as the 32-bit number R57 compares and R97 returns. -/
def byteCount (t : Tier) : Word := BitVec.ofNat 32 (blockCount t * 64)

/-- The four word indexes of site `h q` (30_encoding R51). -/
def siteIndexes : Nat → Nat → Fin 16 × Fin 16 × Fin 16 × Fin 16
  | 0, 0 => (0, 4, 8, 12)
  | 0, 1 => (1, 5, 9, 13)
  | 0, 2 => (2, 6, 10, 14)
  | 0, _ => (3, 7, 11, 15)
  | _, 0 => (0, 5, 10, 15)
  | _, 1 => (1, 6, 11, 12)
  | _, 2 => (2, 7, 8, 13)
  | _, _ => (3, 4, 9, 14)

/-- Row `i` of a block file; no operation asks for a row past the last. -/
def rowAt (f : BlockFile) (i : Nat) : Block := (f[i]?).getD (Vector.replicate 16 0#32)

/-- The file with every row `i < n` replaced by `g i` of it, and the other rows as they were. -/
def mapRows (n : Nat) (g : Fin 16 → Block → Block) (f : BlockFile) : BlockFile :=
  Vector.ofFn fun i => if i.val < n then g i f[i] else f[i]

/-- `S@i`: the state with word 12 increased by `i` modulo 2^32 (40_generate_command R69). -/
def advanceCounter (s : Block) (i : Nat) : Block :=
  s.set 12 (s[12] + BitVec.ofNat 32 i)

/-- All sixteen words of the state have been written since reset (10_state R11, 40_generate_command R60). -/
def stateComplete (sv : Vector Bool 16) : Bool := sv.toList.all id

end Sys2Proof.Machine
end

