-- ==== Sys2Proof/Machine/Ops.lean ====
section
/-! DEFINITION. The shared operations: reading and writing the buffer space, fault entry, the loss of W and ORIG, reset,
who may act when, and which packet the next step runs. -/

namespace Sys2Proof.Machine

/-! ### The keystream buffer space -/

/-- The form of a memory: offsets strictly rising, so that equal contents are equal lists. -/
abbrev Memory.wf (m : Memory) : Prop := m.Pairwise fun c d => c.1 < d.1

/-- The byte at an offset, `none` where nothing has been written (20_memory R30). -/
def Memory.read : Memory → Nat → Option Byte
  | [], _ => none
  | (b, v) :: rest, a => if a = b then some v else Memory.read rest a

/-- `MemWrite(a, 1, v)` (00_scope R8, 20_memory R33). -/
def Memory.write : Memory → Nat → Byte → Memory
  | [], a, v => [(a, v)]
  | (b, u) :: rest, a, v =>
    if a < b then (a, v) :: (b, u) :: rest
    else if a = b then (a, v) :: rest
    else (b, u) :: Memory.write rest a v

/-- `MemWrite(off, n, v)`, least significant byte at the lowest offset (00_scope R8, 20_memory R33). -/
def memWrite (m : Memory) (off : Nat) : Nat → Word → Memory
  | 0, _ => m
  | n + 1, v => memWrite (m.write off (v.setWidth 8)) (off + 1) n (v >>> 8)

/-- Words at offsets `off`, `off + 4`, and so on, in ascending order (20_memory R36). -/
def writeWords (m : Memory) (off : Nat) : List Word → Memory
  | [] => m
  | v :: vs => writeWords (memWrite m off 4 v) (off + 4) vs

/-- `MemRead(off, 1)` as the host sees it: a byte no command has written, or that an abandoned one has left invalid, is a free
byte (45_host_access R108; U11, U12; log 7, 8). -/
def ksByte (s : State) (off : Nat) : Byte := (s.ks.read off).getD (Config.bufferByte s.launch s.epoch off)

/-! ### Registers -/

/-- `S[j] <- v ; SV[j] <- 1` (45_host_access R101). -/
def writeStateWord (s : State) (j : Fin 16) (v : Word) : State :=
  { s with sReg := s.sReg.set j v, sv := s.sv.set j true }

/-- W and ORIG hold no value (10_state R28): two free values are drawn (log 6). -/
def discardBlocks (s : State) : State :=
  { s with
    w := Config.freeBlocks s.launch s.draws
    orig := Config.freeBlocks s.launch (s.draws + 1)
    draws := s.draws + 2 }

/-! ### Taking a contract fault; the way out of it -/

/-- `raise Fault(code)` (60_exceptions R113): nothing is saved, and there is no return but RESET (R117). -/
def raiseFault (f : ContractFault) (s : State) : State :=
  discardBlocks { s with errcode := faultCode f, bytes := 0#32, phase := .fault }

/-- The buffer after RESET: untouched, but where a command was running it holds "nothing valid" (70_reset_and_hazards R126, U12):
nothing is listed any more, and the next epoch's free bytes are read (log 8). -/
def bufferAfterReset (s : State) : Memory × Nat :=
  if busyFlag s.phase then ([], s.epoch + 1) else (s.ks, s.epoch)

/-- RESET (70_reset_and_hazards R126). The host's own side (its moves to come and what it last read) is no
state of the block and is kept (log 17). -/
def resetBlock (s : State) : State :=
  { State.reset with
    ks := (bufferAfterReset s).1
    epoch := (bufferAfterReset s).2
    reply := s.reply
    turns := s.turns
    draws := s.draws
    launch := s.launch }

/-! ### Who may act when (45_host_access R100, 40_generate_command R64) -/

/-- A host write: no such move while BUSY (log 9), ignored in FAULT, else `t`. -/
def hostWrite (s t : State) : Host.Outcome State Fault Refusal :=
  if busyFlag s.phase then .refused .hostAccessWhileBusy
  else if s.phase = .fault then .next s
  else .next t

/-- A host read other than RD.STATUS: no such move while BUSY (log 9), else what `r` answers, left in `reply` (log 10). -/
def hostRead (s : State) (r : Except Refusal Reply) : Host.Outcome State Fault Refusal :=
  if busyFlag s.phase then .refused .hostAccessWhileBusy
  else
    match r with
    | .ok v => .next { s with reply := v }
    | .error e => .refused e

/-- An internal operation: the core performs it in its own PHASE only (log 12). -/
def coreOperation (p : Phase) (s t : State) : Host.Outcome State Fault Refusal :=
  if s.phase = p then .next t else .refused .outOfPhase

/-! ### Which packet the next step runs -/

/-- The core's next internal operation, named by PHASE; none in the resting positions (30_encoding R50). -/
def corePacket (s : State) : Option Packet :=
  if busyFlag s.phase then some (.uop (phaseCode s.phase)) else none

/-- The packet of the next move, `none` when nobody moves, and the state with that turn taken off the list (log 1). With
no turn listed the core moves. The reset input at 0 is no event. -/
def nextPacket (s : State) : Option Packet × State :=
  match s.turns with
  | [] => (corePacket s, s)
  | .core :: rest => (corePacket s, { s with turns := rest })
  | .packet p :: rest => (if p = .event 0#1 then none else some p, { s with turns := rest })

/-- The state whose next move is the packet `p` (log 13). For an internal operation the sequencer is put in its PHASE; for
a site, in the PHASE of its round with no site applied yet. -/
def placePacket (s : State) (p : Packet) : State :=
  match p with
  | .uop c => { s with phase := phaseOfCode c, turns := .core :: s.turns }
  | .qrsel x =>
    { s with
      phase := if x.getLsbD 2 then .diag else .col
      sitesDone := Vector.replicate 4 false
      turns := .packet (.qrsel x) :: s.turns }
  | .cmd c => { s with turns := .packet (.cmd c) :: s.turns }
  | .host code data => { s with turns := .packet (.host code data) :: s.turns }
  | .ks off => { s with turns := .packet (.ks off) :: s.turns }
  | .event b => { s with turns := .packet (.event b) :: s.turns }
  | .bus write offset width data => { s with turns := .packet (.bus write offset width data) :: s.turns }

end Sys2Proof.Machine
end

