-- ==== Sys2Proof/Machine/Engine.lean ====
section
/-! DEFINITION. `chacha20_quarter_round_engine`: QR, COLROUND and DIAGROUND (42_quarter_round_engine.md), in the
direct-indexed form R88 makes normative. -/

namespace Sys2Proof.Machine

/-- `rotl(v, n)`, 0 < n < 32 (00_scope R7). -/
def rotl (v : Word) (n : Nat) : Word := (v <<< n) ||| (v >>> (32 - n))

/-- One line of the quarter round, three assignments: `w[x] <- w[x] +32 w[y] ; w[z] <- w[z] ^ w[x] ; w[z] <- rotl(w[z], n)`
(42_quarter_round_engine R78). -/
def addXorRotl (w : Block) (x y z : Fin 16) (n : Nat) : Block :=
  let w := w.set x (w[x] + w[y])
  let w := w.set z (w[z] ^^^ w[x])
  w.set z (rotl w[z] n)

/-- `QR(w; a, b, c, d)`: twelve assignments, each of them seeing what the earlier ones left (42_quarter_round_engine R78). -/
def quarterRound (w : Block) (a b c d : Fin 16) : Block :=
  let w := addXorRotl w a b d 16
  let w := addXorRotl w c d b 12
  let w := addXorRotl w a b d 8
  addXorRotl w c d b 7

/-- The quarter round at site `h q` (30_encoding R51). -/
def quarterRoundAt (h q : Nat) (w : Block) : Block :=
  quarterRound w (siteIndexes h q).1 (siteIndexes h q).2.1 (siteIndexes h q).2.2.1 (siteIndexes h q).2.2.2

/-- `COLROUND1(w)` (42_quarter_round_engine R79). -/
def colround1 (w : Block) : Block :=
  quarterRoundAt 0 3 (quarterRoundAt 0 2 (quarterRoundAt 0 1 (quarterRoundAt 0 0 w)))

/-- `DIAGROUND1(w)` (42_quarter_round_engine R80). -/
def diaground1 (w : Block) : Block :=
  quarterRoundAt 1 3 (quarterRoundAt 1 2 (quarterRoundAt 1 1 (quarterRoundAt 1 0 w)))

/-- `DROUND1(w)` (42_quarter_round_engine R81). -/
def dround1 (w : Block) : Block := diaground1 (colround1 w)

/-- Site `h q`, unless it has been applied already (log 11). -/
def siteUnlessDone (h q : Nat) (done : Bool) (w : Block) : Block :=
  if done then w else quarterRoundAt h q w

/-- What is left of round `h` after the sites `done`: with none done, the whole round (log 11). -/
def restOfRound (h : Nat) (done : Vector Bool 4) (w : Block) : Block :=
  siteUnlessDone h 3 done[3] (siteUnlessDone h 2 done[2] (siteUnlessDone h 1 done[1] (siteUnlessDone h 0 done[0] w)))

/-- COLROUND's effect (42_quarter_round_engine R79). -/
def columnRound (s : State) : State :=
  { s with
    w := mapRows (blockCount s.tierl) (fun _ b => restOfRound 0 s.sitesDone b) s.w
    phase := .diag
    sitesDone := Vector.replicate 4 false }

/-- DIAGROUND's effect, with the double-round count (42_quarter_round_engine R80). -/
def diagonalRound (s : State) : State :=
  { s with
    w := mapRows (blockCount s.tierl) (fun _ b => restOfRound 1 s.sitesDone b) s.w
    rnd := s.rnd + 1
    phase := if s.rnd + 1 = 10#4 then .final else .col
    sitesDone := Vector.replicate 4 false }

/-- COLROUND (42_quarter_round_engine R79). -/
def execColround (s : State) : Host.Outcome State Fault Refusal :=
  coreOperation .col s (columnRound s)

/-- DIAGROUND (42_quarter_round_engine R80). -/
def execDiaground (s : State) : Host.Outcome State Fault Refusal :=
  coreOperation .diag s (diagonalRound s)

/-- The PHASE of the round a site belongs to (30_encoding R51). -/
def phaseOfHalf (h : Nat) : Phase := if h = 0 then .col else .diag

/-- QR at site `h q` on every working block of the command (42_quarter_round_engine R78, R83; 30_encoding R51): one
per-site step of the round in progress, which R64 allows; the round's own operation then does the sites that are left
(log 11). -/
def execQr (h q : Nat) (s : State) : Host.Outcome State Fault Refusal :=
  if hq : h < 2 ∧ q < 4 then
    if s.phase = phaseOfHalf h ∧ s.sitesDone[q] = true then .refused .siteAlreadyDone
    else
      coreOperation (phaseOfHalf h) s
        { s with
          w := mapRows (blockCount s.tierl) (fun _ b => quarterRoundAt h q b) s.w
          sitesDone := s.sitesDone.set q true }
  else .refused .illFormed

end Sys2Proof.Machine
end

