-- ==== Sys2Proof/Machine/Finalizer.lean ====
section
/-! DEFINITION. `block_finalizer_adder`: the operation FINAL (43_finalizer_adder.md). -/

namespace Sys2Proof.Machine

/-- Word-wise addition modulo 2^32 (43_finalizer_adder R91): no carry passes from one word to another. -/
def addBlocks (a b : Block) : Block := Vector.ofFn fun j => a[j] + b[j]

/-- FINAL's effect (43_finalizer_adder R91). -/
def feedForward (s : State) : State :=
  { s with
    w := mapRows (blockCount s.tierl) (fun i b => addBlocks b s.orig[i]) s.w
    phase := .ser }

/-- FINAL (43_finalizer_adder R91). -/
def execFinalAdd (s : State) : Host.Outcome State Fault Refusal :=
  coreOperation .final s (feedForward s)

end Sys2Proof.Machine
end

