-- ==== Sys2Proof/Machine/Generate.lean ====
section
/-! DEFINITION. The top block: the issue of a command and its three mnemonics (40_generate_command.md). -/

namespace Sys2Proof.Machine

/-- `ISSUE(c)` (40_generate_command R60): the checks in the order E_CMD, E_STATE, E_BUFFER (60_exceptions R115). -/
def issue (c : Word) (s : State) : State :=
  let s := { s with bytes := 0#32 }
  match commandTier c with
  | none => raiseFault .eCmd s
  | some t =>
    if stateComplete s.sv = false then raiseFault .eState s
    else if s.outCap.ult (byteCount t) then raiseFault .eBuffer s
    else { s with tierl := t, phase := .repl }

/-- GEN.N (40_generate_command R61): `WR.CMD 0x00000100` (30_encoding R58). -/
def execGenN (s : State) : Host.Outcome State Fault Refusal := hostWrite s (issue 0x00000100#32 s)

/-- GEN.M (40_generate_command R62): `WR.CMD 0x00000101`. -/
def execGenM (s : State) : Host.Outcome State Fault Refusal := hostWrite s (issue 0x00000101#32 s)

/-- GEN.W (40_generate_command R63): `WR.CMD 0x00000102`. -/
def execGenW (s : State) : Host.Outcome State Fault Refusal := hostWrite s (issue 0x00000102#32 s)

end Sys2Proof.Machine
end

