-- ==== Sys2Proof/Machine/HostAccess.lean ====
section
/-! DEFINITION. The host's accesses (45_host_access.md). -/

namespace Sys2Proof.Machine

/-- WR.S j, v (45_host_access R101). -/
def execWrS (j : Nat) (v : Word) (s : State) : Host.Outcome State Fault Refusal :=
  if h : j < 16 then hostWrite s (writeStateWord s ⟨j, h⟩ v) else .refused .illFormed

/-- WR.CAP v (45_host_access R102). -/
def execWrCap (v : Word) (s : State) : Host.Outcome State Fault Refusal :=
  hostWrite s { s with outCap := v }

/-- WR.CMD c (45_host_access R103). -/
def execWrCmd (c : Word) (s : State) : Host.Outcome State Fault Refusal :=
  hostWrite s (issue c s)

/-- RD.STATUS, defined in every PHASE (45_host_access R104). -/
def execRdStatus (s : State) : Host.Outcome State Fault Refusal :=
  .next { s with reply := .word (statusWord s) }

/-- RD.BYTES (45_host_access R105). -/
def execRdBytes (s : State) : Host.Outcome State Fault Refusal :=
  hostRead s (.ok (.word s.bytes))

/-- RD.S j (45_host_access R106): refused where SV[j] = 0, as R106, 10_state R26 and D22 say ("a model refuses it and does not
return zero or any other number"). -/
def execRdS (j : Nat) (s : State) : Host.Outcome State Fault Refusal :=
  if h : j < 16 then
    hostRead s (if s.sv[j] then .ok (.word s.sReg[j]) else .error .unwrittenStateWord)
  else .refused .illFormed

/-- RD.CAP (45_host_access R107). -/
def execRdCap (s : State) : Host.Outcome State Fault Refusal :=
  hostRead s (.ok (.word s.outCap))

/-- RD.KS off (45_host_access R108): refused where `off >= OUT_CAP` (R109). -/
def execRdKs (off : Word) (s : State) : Host.Outcome State Fault Refusal :=
  hostRead s
    (if off.ult s.outCap then .ok (.byte (ksByte s off.toNat)) else .error .keystreamOffsetOutOfRange)

end Sys2Proof.Machine
end

