-- ==== Sys2Proof/Machine/Replicator.lean ====
section
/-! DEFINITION. `vector_state_replicator`: the operation REPL (41_state_replicator.md). -/

namespace Sys2Proof.Machine

/-- Working copy `i`: the state with its counter word advanced by the tier's delta for block `i` (41_state_replicator R71,
R73; 10_state R20). -/
def replicaOf (t : Tier) (s : Block) (i : Nat) : Block :=
  Vector.ofFn fun j => if j.val = 12 then s[12] + Config.delta t i else s[j]

/-- REPL's effect (41_state_replicator R71). The round it opens has no site applied. -/
def replicate (s : State) : State :=
  { s with
    w := mapRows (blockCount s.tierl) (fun i _ => replicaOf s.tierl s.sReg i.val) s.w
    orig := mapRows (blockCount s.tierl) (fun i _ => replicaOf s.tierl s.sReg i.val) s.orig
    rnd := 0#4
    phase := .col
    sitesDone := Vector.replicate 4 false }

/-- REPL (41_state_replicator R71). -/
def execRepl (s : State) : Host.Outcome State Fault Refusal :=
  coreOperation .repl s (replicate s)

end Sys2Proof.Machine
end

