-- ==== Sys2Proof/Machine/Serializer.lean ====
section
/-! DEFINITION. `output_serializer`: the operation SER (44_output_serializer.md). -/

namespace Sys2Proof.Machine

/-- The first `n` rows written in ascending offset, row `i` from offset `64*i` (44_output_serializer R95, R99). -/
def serializeRows (w : BlockFile) (m : Memory) : Nat → Memory
  | 0 => m
  | n + 1 => writeWords (serializeRows w m n) (64 * n) (rowAt w n).toList

/-- SER's effect (44_output_serializer R95): the bytes, BYTES, the loss of W and ORIG, PHASE. It checks nothing: "the
capacity was checked at issue" (log 16). -/
def serialize (s : State) : State :=
  discardBlocks
    { s with
      ks := serializeRows s.w s.ks (blockCount s.tierl)
      bytes := byteCount s.tierl
      phase := .done }

/-- SER (44_output_serializer R95). -/
def execSer (s : State) : Host.Outcome State Fault Refusal :=
  coreOperation .ser s (serialize s)

end Sys2Proof.Machine
end

