-- ==== Sys2Proof/Machine/Dispatch.lean ====
section
/-! DEFINITION. The dispatch of the operations to their meanings, one arm each. -/

namespace Sys2Proof.Machine

-- one arm per constructor of Instr
def exec (i : Instr) (s : State) : Host.Outcome State Fault Refusal :=
  match i with
  | .genN => Sys2Proof.Machine.execGenN s
  | .genM => Sys2Proof.Machine.execGenM s
  | .genW => Sys2Proof.Machine.execGenW s
  | .wrS j v => Sys2Proof.Machine.execWrS j v s
  | .wrCap v => Sys2Proof.Machine.execWrCap v s
  | .wrCmd c => Sys2Proof.Machine.execWrCmd c s
  | .rdStatus => Sys2Proof.Machine.execRdStatus s
  | .rdBytes => Sys2Proof.Machine.execRdBytes s
  | .rdS j => Sys2Proof.Machine.execRdS j s
  | .rdCap => Sys2Proof.Machine.execRdCap s
  | .rdKs off => Sys2Proof.Machine.execRdKs off s
  | .repl => Sys2Proof.Machine.execRepl s
  | .colround => Sys2Proof.Machine.execColround s
  | .diaground => Sys2Proof.Machine.execDiaground s
  | .finalAdd => Sys2Proof.Machine.execFinalAdd s
  | .ser => Sys2Proof.Machine.execSer s
  | .qr h q => Sys2Proof.Machine.execQr h q s
  | .reset => Sys2Proof.Machine.execReset s

end Sys2Proof.Machine
end

