-- ==== Sys2Proof/Machine/Step.lean ====
section
/-! DEFINITION. One step of the machine: the next move, the host's or the core's (10_state R29), and the placing of one
operation where the next step runs it. -/

namespace Sys2Proof.Machine

/-- One step. Where nobody moves (a resting position and no host access) the state stays (log 2). -/
def step (s : State) : Host.Outcome State Fault Refusal :=
  match nextPacket s with
  | (none, t) => .next t
  | (some p, t) =>
    match decode p with
    | .ok i => exec i t
    | .error e => .refused (.undefinedAccess e)

/-- The state whose next step runs the operation of a word of the opcode table (log 13). -/
def State.withFetchWord (s : State) (nbits w : Nat) : State := placePacket s (tablePacket nbits w)

end Sys2Proof.Machine
end

