-- ==== Sys2Proof/Machine/Instances.lean ====
section
/-! DEFINITION. Several instances of the block (60_exceptions R123, 20_memory R42): each has all its state privately, and they
share only the immutable tables of Config. The free values are such tables too, which is the model's choice: two instances read
the same ones only where their fields `launch` and `epoch` (or `draws`) agree (log 7, 8). -/

namespace Sys2Proof.Machine

/-- Instances side by side; the position in the list is only the reader's name for one ("an instance has no identifier"). -/
abbrev Instances := List State

/-- One step of instance `k`; no move when there is none or when it stops. -/
def stepInstance (k : Nat) (all : Instances) : Option Instances :=
  match all[k]? with
  | none => none
  | some s =>
    match step s with
    | .next t => some (all.set k t)
    | .fault _ => none
    | .refused _ => none

/-- The steps of a schedule, which names the instance that steps next. -/
def runInstances : List Nat → Instances → Option Instances
  | [], all => some all
  | k :: rest, all =>
    match stepInstance k all with
    | none => none
    | some all' => runInstances rest all'

end Sys2Proof.Machine
end

