-- ==== Sys2Proof/Machine/Reference.lean ====
section
/-! DEFINITION. The scalar reference function every result is held to (40_generate_command R69). -/

namespace Sys2Proof.Machine

/-- `n` double rounds (40_generate_command R69, 42_quarter_round_engine R82). -/
def doubleRounds : Nat → Block → Block
  | 0, w => w
  | n + 1, w => dround1 (doubleRounds n w)

/-- `BLOCK(s)` (40_generate_command R69). -/
def blockFunction (s : Block) : Block := addBlocks (doubleRounds 10 s) s

/-- Byte `k` of a word, `v[8k+7:8k]` (20_memory R34). -/
def wordByte (v : Word) (k : Nat) : Byte := (v >>> (8 * k)).setWidth 8

/-- Byte `p` of `BYTES64(out)`: `out[j][8k+7:8k]` at position `4j + k` (40_generate_command R69, 30_encoding R53). -/
def bytes64 (out : Block) (p : Fin 64) : Byte := wordByte (out[p.val / 4]'(by omega)) (p.val % 4)

/-- Byte `a` of the keystream of a command with state `s`: byte `a mod 64` of `BYTES64(BLOCK(S@(a / 64)))`
(40_generate_command R66). -/
def keystreamByte (s : Block) (a : Nat) : Byte :=
  bytes64 (blockFunction (advanceCounter s (a / 64))) ⟨a % 64, by omega⟩

end Sys2Proof.Machine
end

