-- ==== Sys2Proof/Machine/Vectors.lean ====
section
/-! DEFINITION. The vector organisations of the replicator, the round engine and the serializer, which are not observable
(41_state_replicator R73; 42_quarter_round_engine R86, R87, R88; 44_output_serializer R96). No meaning uses them: they are
here so that their equality with the direct form can be stated, for every group width (00_scope R6, U1). -/

namespace Sys2Proof.Machine

/-! ### The row organisation (R86): four row registers of `4*G` lanes for a group of `G` blocks -/

/-- The row registers A, B, C, D of a group of blocks. -/
structure RowRegs where
  a : List Word
  b : List Word
  c : List Word
  d : List Word
  deriving DecidableEq, Repr

/-- Lanes `r`: the words `4r`, `4r+1`, `4r+2`, `4r+3` of every block of the group, block after block (R86: "lane 4*g + k
belongs to block g of the group"). -/
def packRow (r : Fin 4) (blocks : List Block) : List Word :=
  blocks.flatMap fun w =>
    [w[4 * r.val]'(by omega), w[4 * r.val + 1]'(by omega), w[4 * r.val + 2]'(by omega), w[4 * r.val + 3]'(by omega)]

/-- The group's row registers. -/
def packRows (blocks : List Block) : RowRegs where
  a := packRow 0 blocks
  b := packRow 1 blocks
  c := packRow 2 blocks
  d := packRow 3 blocks

/-- Lane by lane: `x + y`. -/
def laneAdd (x y : List Word) : List Word := List.zipWith (fun u v => u + v) x y

/-- Lane by lane: `rotl(x ^ y, n)`. -/
def laneXorRotl (x y : List Word) (n : Nat) : List Word := List.zipWith (fun u v => rotl (u ^^^ v) n) x y

/-- `QRV(A, B, C, D)`: the quarter round lane by lane (R86). -/
def quarterRoundRows (v : RowRegs) : RowRegs :=
  let v := { v with a := laneAdd v.a v.b }
  let v := { v with d := laneXorRotl v.d v.a 16 }
  let v := { v with c := laneAdd v.c v.d }
  let v := { v with b := laneXorRotl v.b v.c 12 }
  let v := { v with a := laneAdd v.a v.b }
  let v := { v with d := laneXorRotl v.d v.a 8 }
  let v := { v with c := laneAdd v.c v.d }
  { v with b := laneXorRotl v.b v.c 7 }

/-- `LROT(X, r)`: lane `k` of each group of four lanes receives lane `(k + r) mod 4` of that group (R86). -/
def laneRotate (r : Nat) : List Word → List Word
  | x0 :: x1 :: x2 :: x3 :: rest =>
    let g := [x0, x1, x2, x3]
    g.getD ((0 + r) % 4) 0 :: g.getD ((1 + r) % 4) 0 :: g.getD ((2 + r) % 4) 0 :: g.getD ((3 + r) % 4) 0
      :: laneRotate r rest
  | [] => []
  | [x0] => [x0]
  | [x0, x1] => [x0, x1]
  | [x0, x1, x2] => [x0, x1, x2]

/-- `COLROUND1` in the row form (R86). -/
def colroundRows (v : RowRegs) : RowRegs := quarterRoundRows v

/-- `DIAGROUND1` in the row form: rotate the lanes, apply QRV, rotate back (R86). -/
def diagroundRows (v : RowRegs) : RowRegs :=
  let v := { v with b := laneRotate 1 v.b, c := laneRotate 2 v.c, d := laneRotate 3 v.d }
  let v := quarterRoundRows v
  { v with b := laneRotate 3 v.b, c := laneRotate 2 v.c, d := laneRotate 1 v.d }

/-! ### The word-sliced organisation (R87): sixteen registers with one lane per block -/

/-- The sixteen vector registers: lane `i` of `V[j]` is word `j` of block `i` (R87). -/
abbrev SlicedRegs := Vector (List Word) 16

/-- The word-sliced registers of a list of blocks. -/
def packSliced (blocks : List Block) : SlicedRegs :=
  Vector.ofFn fun j => blocks.map fun w => w[j]

/-- One line of the quarter round lane by lane: `V[x] +32 V[y]` into `V[x]`, then `rotl(V[z] ^ V[x], n)` into `V[z]` (R87). -/
def addXorRotlSliced (v : SlicedRegs) (x y z : Fin 16) (n : Nat) : SlicedRegs :=
  let v := v.set x (laneAdd v[x] v[y])
  v.set z (laneXorRotl v[z] v[x] n)

/-- The quarter round on `(V[a], V[b], V[c], V[d])` lane by lane (R87). -/
def quarterRoundSliced (v : SlicedRegs) (a b c d : Fin 16) : SlicedRegs :=
  let v := addXorRotlSliced v a b d 16
  let v := addXorRotlSliced v c d b 12
  let v := addXorRotlSliced v a b d 8
  addXorRotlSliced v c d b 7

/-- The vector form of REPL: broadcast each word over `N` lanes, then add the tier's delta table lane by lane to `V[12]`
only (41_state_replicator R73). -/
def replicateSliced (t : Tier) (s : Block) : SlicedRegs :=
  let v : SlicedRegs := Vector.ofFn fun j => List.replicate (blockCount t) s[j]
  v.set 12 (laneAdd v[12] ((List.range (blockCount t)).map (Config.delta t)))

/-! ### De-interleaving (R96) -/

/-- The buffer offset of lane `4*g + k` of row register `r` of the group whose first block is `g0` (44_output_serializer R96). -/
def rowLaneOffset (g0 g r k : Nat) : Nat := 64 * (g0 + g) + 16 * r + 4 * k

/-- The buffer offset of lane `i` of register `V[j]` (44_output_serializer R96). -/
def slicedLaneOffset (i j : Nat) : Nat := 64 * i + 4 * j

end Sys2Proof.Machine
end

