-- ==== Sys2Proof/Safety.lean ====
section
/-! DEFINITION. What claims about runs use: the end of a run (70_reset_and_hazards R139), the steps a command has left
(R137), and what holds of the state at every point of a run. -/

namespace Sys2Proof.Machine

/-- The good end of a run: DONE, with ERR = 0 (70_reset_and_hazards R139). -/
def goodEnd (s : State) : Prop := s.phase = .done

/-- The next command may be issued: IDLE or DONE (45_host_access R100). -/
def atRest (s : State) : Prop := s.phase = .idle ∨ s.phase = .done

/-- The premises under which a command of tier `t` is accepted (40_generate_command R60): the block at rest, a complete state, a
buffer large enough. -/
def commandReady (t : Tier) (s : State) : Prop :=
  atRest s ∧ (∀ j : Fin 16, s.sv[j] = true) ∧ blockCount t * 64 ≤ s.outCap.toNat

/-- `t` is `s` after fault entry with `code` (60_exceptions R113): nothing else of the block changes, and what W and ORIG
hold afterwards is left open (R28). -/
def faultEntered (code : BitVec 4) (s t : State) : Prop :=
  ∃ w' orig' n, t = { s with errcode := code, bytes := 0#32, phase := .fault, w := w', orig := orig', draws := n }

/-- `t` is reached from `s` by the command word `c` and the 23 core steps of 40_generate_command R64. -/
def commandRun (c : Word) (s t : State) : Prop :=
  ∃ u, exec (.wrCmd c) s = .next u ∧ Host.Core.run Sys2Proof.core 23 u = .next t

/-- The core steps left until DONE (40_generate_command R64, 70_reset_and_hazards R137): 23 at REPL, 0 where no command runs. -/
def stepsLeft (s : State) : Nat :=
  match s.phase with
  | .repl => 23
  | .col => 2 * (10 - s.rnd.toNat) + 2
  | .diag => 2 * (10 - s.rnd.toNat) + 1
  | .final => 2
  | .ser => 1
  | .idle => 0
  | .done => 0
  | .fault => 0

/-- RND's range in each PHASE (10_state R16, 42_quarter_round_engine R80). -/
def rndInRange (s : State) : Prop :=
  match s.phase with
  | .col => s.rnd.toNat < 10
  | .diag => s.rnd.toNat < 10
  | .final => s.rnd.toNat = 10
  | .ser => s.rnd.toNat = 10
  | .done => s.rnd.toNat = 10
  | .idle => s.rnd.toNat ≤ 10
  | .repl => s.rnd.toNat ≤ 10
  | .fault => s.rnd.toNat ≤ 10

/-- What the registers that control a command satisfy at every point of a run. -/
structure ControlInv (s : State) : Prop where
  /-- The buffer is in its canonical form. -/
  buffer : s.ks.wf
  /-- RND counts the double rounds done, 0 to 10 (10_state R16). -/
  rounds : rndInRange s
  /-- "ERRCODE is nonzero exactly when ERR is 1" (30_encoding R49), and 4 to 15 are never written (R55). -/
  code : (s.errcode ≠ 0#4 ↔ s.phase = .fault) ∧ s.errcode.toNat ≤ 3
  /-- BYTES is N*64 when DONE and 0 otherwise (10_state R21, 44_output_serializer R97). -/
  count : s.bytes = if s.phase = .done then byteCount s.tierl else 0#32
  /-- While BUSY the state is complete and the buffer holds the command's bytes (40_generate_command R60). -/
  launch : busyFlag s.phase = true →
    (∀ j : Fin 16, s.sv[j] = true) ∧ blockCount s.tierl * 64 ≤ s.outCap.toNat
  /-- Only a round in progress has sites done (log 11). -/
  sites : s.phase ≠ .col → s.phase ≠ .diag → s.sitesDone = Vector.replicate 4 false

/-- The sites `done` of round `h`, applied to a block. -/
def sitesApplied (h : Nat) (done : Vector Bool 4) (w : Block) : Block :=
  siteUnlessDone h 3 (!done[3]) (siteUnlessDone h 2 (!done[2])
    (siteUnlessDone h 1 (!done[1]) (siteUnlessDone h 0 (!done[0]) w)))

/-- What row `i` of W holds at each point of a command, as a function of S (42_quarter_round_engine R82, R89; 43_finalizer_adder R91):
`none` where no row holds a value. -/
def expectedRow (s : State) (i : Nat) : Option Block :=
  let start := advanceCounter s.sReg i
  match s.phase with
  | .col => some (sitesApplied 0 s.sitesDone (doubleRounds s.rnd.toNat start))
  | .diag => some (sitesApplied 1 s.sitesDone (colround1 (doubleRounds s.rnd.toNat start)))
  | .final => some (doubleRounds 10 start)
  | .ser => some (blockFunction start)
  | .idle => none
  | .repl => none
  | .done => none
  | .fault => none

/-- What the block files satisfy at every point of a run: W is the reference computation as far as it has come, and ORIG
is the per-block original until FINAL has used it (41_state_replicator R71, R75). -/
structure WorkInv (s : State) : Prop where
  working : ∀ i : Fin 16, i.val < blockCount s.tierl →
    ∀ b, expectedRow s i.val = some b → s.w[i] = b
  original : s.phase = .col ∨ s.phase = .diag ∨ s.phase = .final →
    ∀ i : Fin 16, i.val < blockCount s.tierl → s.orig[i] = advanceCounter s.sReg i.val

/-- The two together: what every step keeps. -/
structure RunInv (s : State) : Prop where
  control : ControlInv s
  work : WorkInv s

end Sys2Proof.Machine
end

