-- ==== Sys2Proof/Certificates/Slice0/Obligations.lean ====
section
/-! DEFINITION. The statements for the provers, from the numbered rules of `spec/`. None of them rests on the value of a
free value or of a register the spec gives no reset value. -/

open Sys2Proof Sys2Proof.Machine

/-! ### Encodings -/

/-- Decoding the packet of a well-formed operation gives the operation back, for every operand (30_encoding R46, R48,
R50, R51). -/
def Obligations.EncodeThenDecodeGivesInstr : Prop :=
  ∀ i : Instr, i.wellFormed = true → decode (encode i) = .ok i

/-- Words written out from the spec's encodings decode to what they stand for (30_encoding R46, R48, R50, R51, R58). -/
def Obligations.SpecWordsDecode : Prop :=
  decode (.cmd 0x00000100#32) = .ok .genN ∧
  decode (.cmd 0x00000101#32) = .ok .genM ∧
  decode (.cmd 0x00000102#32) = .ok .genW ∧
  decode (.host 0xB0#8 0x00000001#32) = .ok (.wrS 12 0x00000001#32) ∧
  decode (.host 0xC0#8 0x00000400#32) = .ok (.wrCap 0x00000400#32) ∧
  decode (.host 0xC4#8 0x00000103#32) = .ok (.wrCmd 0x00000103#32) ∧
  decode (.host 0x48#8 0#32) = .ok .rdStatus ∧
  decode (.host 0x4C#8 0#32) = .ok .rdBytes ∧
  decode (.host 0x30#8 0#32) = .ok (.rdS 12) ∧
  decode (.ks 0x0000007F#32) = .ok (.rdKs 0x0000007F#32) ∧
  decode (.uop 0b001#3) = .ok .repl ∧
  decode (.uop 0b011#3) = .ok .diaground ∧
  decode (.uop 0b101#3) = .ok .ser ∧
  decode (.qrsel 0b110#3) = .ok (.qr 1 2) ∧
  decode (.event 1#1) = .ok .reset

/-- The HOST codes that are accesses are those of the register map, and an accepted code is the one its operation is
encoded with (30_encoding R48, R56). -/
def Obligations.AcceptedHostCodesAreTheRegisterMap : Prop :=
  ∀ (code : BitVec 8) (data : Word),
    ((∃ i, decode (.host code data) = .ok i) ↔
      (code &&& 0xC3#8 = 0x80#8 ∨ code &&& 0xC3#8 = 0x00#8 ∨ code = 0xC0#8 ∨ code = 0x40#8 ∨ code = 0xC4#8 ∨
        code = 0x48#8 ∨ code = 0x4C#8)) ∧
    (∀ i, decode (.host code data) = .ok i → ∃ d, encode i = .host code d)

/-- The accesses R109 leaves undefined are refused by the step that meets them, whatever the state: in format HOST an offset that
is not a multiple of 4, an offset at or above 0x50, a write of STATUS or BYTES, a read of CMD; as a raw register access (the
model's own `bus` packets, log 15) these, an offset above 0x7F and a width other than 32 bits; and RD.KS at or past OUT_CAP. A raw
access of 32 bits inside the map is the HOST code's (30_encoding R48, log 15). -/
def Obligations.UndefinedAccessesAreRefused : Prop :=
  (∀ (write : Bool) (off width data : Nat),
    (width ≠ 32 ∨ 0x80 ≤ off ∨ off % 4 ≠ 0 ∨ 0x50 ≤ off ∨ (write = true ∧ (off = 0x48 ∨ off = 0x4C)) ∨
      (write = false ∧ off = 0x44)) →
    ∃ e, ∀ (s : State) (rest : List Turn), s.turns = .packet (.bus write off width data) :: rest →
      step s = .refused (.undefinedAccess e)) ∧
  (∀ (code : BitVec 8) (data : Word),
    (code &&& 0x03#8 ≠ 0#8 ∨ 0x50 ≤ (code &&& 0x7F#8).toNat ∨ code = 0xC8#8 ∨ code = 0xCC#8 ∨ code = 0x44#8) →
    ∃ e, ∀ (s : State) (rest : List Turn), s.turns = .packet (.host code data) :: rest →
      step s = .refused (.undefinedAccess e)) ∧
  (∀ (write : Bool) (off data : Nat), off < 0x80 →
    decode (.bus write off 32 data) = decode (.host (hostCode write off) (BitVec.ofNat 32 data))) ∧
  (∀ (s : State) (off : Word), s.outCap.toNat ≤ off.toNat → ∃ r, exec (.rdKs off) s = .refused r)

/-- A word is a command of tier `t` exactly when its four fields are ZERO1 = 0, OPC = 0x01, ZERO0 = 0 and TIER = the
tier's code (30_encoding R46, R47, R56). -/
def Obligations.CommandWordFields : Prop :=
  ∀ (c : Word) (t : Tier), commandTier c = some t ↔
    (c.extractLsb' 16 16 = 0#16 ∧ c.extractLsb' 8 8 = 0x01#8 ∧ c.extractLsb' 2 6 = 0#6 ∧
      c.extractLsb' 0 2 = tierCode t)

/-- The tier table: code, N and bytes written, and code 3 is illegal (30_encoding R47). -/
def Obligations.TierTable : Prop :=
  (tierCode .narrow = 0#2 ∧ blockCount .narrow = 2 ∧ byteCount .narrow = 128#32) ∧
  (tierCode .medium = 1#2 ∧ blockCount .medium = 4 ∧ byteCount .medium = 256#32) ∧
  (tierCode .wide = 2#2 ∧ blockCount .wide = 16 ∧ byteCount .wide = 1024#32) ∧
  (∀ t, tierCode t ≠ 3#2) ∧
  commandTier 0x00000103#32 = none

/-- The site table and its closed form; the site `h ++ q` names the quarter round at those four words (30_encoding R51). -/
def Obligations.SiteTable : Prop :=
  (siteIndexes 0 0 = (0, 4, 8, 12) ∧ siteIndexes 0 1 = (1, 5, 9, 13) ∧ siteIndexes 0 2 = (2, 6, 10, 14) ∧
    siteIndexes 0 3 = (3, 7, 11, 15)) ∧
  (siteIndexes 1 0 = (0, 5, 10, 15) ∧ siteIndexes 1 1 = (1, 6, 11, 12) ∧ siteIndexes 1 2 = (2, 7, 8, 13) ∧
    siteIndexes 1 3 = (3, 4, 9, 14)) ∧
  (∀ h q : Nat, h < 2 → q < 4 →
    (siteIndexes h q).1.val = q ∧
    (siteIndexes h q).2.1.val = 4 + (q + h) % 4 ∧
    (siteIndexes h q).2.2.1.val = 8 + (q + 2 * h) % 4 ∧
    (siteIndexes h q).2.2.2.val = 12 + (q + 3 * h) % 4) ∧
  (∀ h q : Nat, h < 2 → q < 4 →
    decode (.qrsel (BitVec.ofNat 1 h ++ BitVec.ofNat 2 q)) = .ok (.qr h q))

/-! ### The step -/

/-- A step runs the decoded operation: a listed packet with its turn taken off the list, or, with no turn listed or a core
turn next, the operation whose UOP code is the PHASE of a busy block (10_state R15, R29; 30_encoding R50). The packet at
the head of `turns` is the model's form of a host move (log 1). -/
def Obligations.StepRunsTheDecodedOperation : Prop :=
  (∀ (s : State) (p : Packet) (rest : List Turn) (i : Instr),
    s.turns = .packet p :: rest → decode p = .ok i →
      i.wellFormed = true ∧ step s = exec i { s with turns := rest }) ∧
  (∀ (s : State) (rest : List Turn) (i : Instr),
    s.turns = .core :: rest → busyFlag s.phase = true → decode (.uop (phaseCode s.phase)) = .ok i →
      step s = exec i { s with turns := rest }) ∧
  (∀ (s : State) (i : Instr),
    s.turns = [] → busyFlag s.phase = true → decode (.uop (phaseCode s.phase)) = .ok i → step s = exec i s)

/-- PHASE names the core's operation, and in IDLE, DONE and FAULT the core has none (30_encoding R50, 40_generate_command R64). That a step
then leaves the state as it is, is the model's choice (log 2). -/
def Obligations.PhaseNamesTheOperation : Prop :=
  (∀ s : State, s.turns = [] →
    (s.phase = .repl → step s = exec .repl s) ∧
    (s.phase = .col → step s = exec .colround s) ∧
    (s.phase = .diag → step s = exec .diaground s) ∧
    (s.phase = .final → step s = exec .finalAdd s) ∧
    (s.phase = .ser → step s = exec .ser s) ∧
    (busyFlag s.phase = false → step s = .next s)) ∧
  (∀ p : Phase, phaseOfCode (phaseCode p) = p)

/-! ### Host accesses -/

/-- WR.S j, v at rest: `S[j] <- v ; SV[j] <- 1`, and nothing else changes (45_host_access R101). -/
def Obligations.WriteStateWordResult : Prop :=
  ∀ (s : State) (j : Fin 16) (v : Word), atRest s →
    exec (.wrS j.val v) s = .next { s with sReg := s.sReg.set j v, sv := s.sv.set j true }

/-- WR.CAP v at rest: `OUT_CAP <- v`, and nothing else changes (45_host_access R102). -/
def Obligations.WriteCapacityResult : Prop :=
  ∀ (s : State) (v : Word), atRest s → exec (.wrCap v) s = .next { s with outCap := v }

/-- An accepted command: BYTES 0, TIERL the tier, PHASE REPL, and nothing else changes; by the command port and by its
three mnemonics (40_generate_command R60 to R63). -/
def Obligations.AcceptedCommandResult : Prop :=
  (∀ (s : State) (c : Word) (t : Tier), commandTier c = some t → commandReady t s →
    exec (.wrCmd c) s = .next { s with bytes := 0#32, tierl := t, phase := .repl }) ∧
  (∀ s : State, commandReady .narrow s →
    exec .genN s = .next { s with bytes := 0#32, tierl := .narrow, phase := .repl }) ∧
  (∀ s : State, commandReady .medium s →
    exec .genM s = .next { s with bytes := 0#32, tierl := .medium, phase := .repl }) ∧
  (∀ s : State, commandReady .wide s →
    exec .genW s = .next { s with bytes := 0#32, tierl := .wide, phase := .repl })

/-- GEN.N, GEN.M and GEN.W are WR.CMD with the three legal words, in every state (45_host_access R103, 30_encoding R58). A word in
format CMD is that word written to the command port (30_encoding R45, R56): that an illegal word too decodes so, to WR.CMD of
it, is the model's reading (log 14). -/
def Obligations.MnemonicsAreCommandWrites : Prop :=
  (∀ s : State, exec .genN s = exec (.wrCmd 0x00000100#32) s ∧ exec .genM s = exec (.wrCmd 0x00000101#32) s ∧
    exec .genW s = exec (.wrCmd 0x00000102#32) s) ∧
  (∀ (c : Word) (i : Instr), decode (.cmd c) = .ok i → ∀ s : State, exec i s = exec (.wrCmd c) s)

/-- The outcome of a command at rest, with the order of the checks: E_CMD for any word but the three, whatever else is
wrong; else E_STATE when some word has not been written; else E_BUFFER when OUT_CAP < N*64; else acceptance. Each fault is
taken by fault entry alone (40_generate_command R60; 60_exceptions R111 to R115). -/
def Obligations.CommandOutcome : Prop :=
  ∀ (s : State) (c : Word), atRest s → ∃ t, exec (.wrCmd c) s = .next t ∧
    (commandTier c = none → faultEntered 1#4 s t) ∧
    (∀ k, commandTier c = some k →
      ((∃ j : Fin 16, s.sv[j] = false) → faultEntered 2#4 s t) ∧
      ((∀ j : Fin 16, s.sv[j] = true) → s.outCap.toNat < blockCount k * 64 → faultEntered 3#4 s t) ∧
      ((∀ j : Fin 16, s.sv[j] = true) → blockCount k * 64 ≤ s.outCap.toNat → t.phase = .repl))

/-- The mnemonics' buffer boundary: at 128, 256 and 1024 bytes accepted, one byte less faults E_BUFFER
(60_exceptions R114, 40_generate_command R60). -/
def Obligations.BufferBoundary : Prop :=
  ∀ s : State, atRest s → (∀ j : Fin 16, s.sv[j] = true) →
    (s.outCap.toNat < 128 → ∃ t, exec .genN s = .next t ∧ faultEntered 3#4 s t) ∧
    (128 ≤ s.outCap.toNat → ∃ t, exec .genN s = .next t ∧ t.phase = .repl ∧ t.errcode = s.errcode) ∧
    (s.outCap.toNat < 256 → ∃ t, exec .genM s = .next t ∧ faultEntered 3#4 s t) ∧
    (256 ≤ s.outCap.toNat → ∃ t, exec .genM s = .next t ∧ t.phase = .repl ∧ t.errcode = s.errcode) ∧
    (s.outCap.toNat < 1024 → ∃ t, exec .genW s = .next t ∧ faultEntered 3#4 s t) ∧
    (1024 ≤ s.outCap.toNat → ∃ t, exec .genW s = .next t ∧ t.phase = .repl ∧ t.errcode = s.errcode)

/-- In FAULT the writes are accepted and ignored: they change nothing (45_host_access R100, 60_exceptions R121). -/
def Obligations.FaultIgnoresWrites : Prop :=
  ∀ s : State, s.phase = .fault →
    (∀ (j : Fin 16) (v : Word), exec (.wrS j.val v) s = .next s) ∧
    (∀ v : Word, exec (.wrCap v) s = .next s) ∧
    (∀ c : Word, exec (.wrCmd c) s = .next s) ∧
    exec .genN s = .next s ∧ exec .genM s = .next s ∧ exec .genW s = .next s

/-- In FAULT every operation but RESET leaves everything as it is but the host's own reply; so ERR, ERRCODE and the buffer
keep their values (60_exceptions R117, R121). -/
def Obligations.FaultIsLeftByResetOnly : Prop :=
  ∀ (i : Instr) (s t : State), s.phase = .fault → i ≠ .reset → exec i s = .next t → t = { s with reply := t.reply }

/-- While BUSY every host access but RD.STATUS and RESET is refused. R100 says the host has no such move and lets a model
refuse it: that it is a refusal is the model's choice (log 9). -/
def Obligations.BusyRefusesHostAccesses : Prop :=
  ∀ s : State, busyFlag s.phase = true →
    (∀ (j : Fin 16) (v : Word), exec (.wrS j.val v) s = .refused .hostAccessWhileBusy) ∧
    (∀ v : Word, exec (.wrCap v) s = .refused .hostAccessWhileBusy) ∧
    (∀ c : Word, exec (.wrCmd c) s = .refused .hostAccessWhileBusy) ∧
    (∀ j : Fin 16, exec (.rdS j.val) s = .refused .hostAccessWhileBusy) ∧
    (∀ off : Word, exec (.rdKs off) s = .refused .hostAccessWhileBusy) ∧
    exec .rdBytes s = .refused .hostAccessWhileBusy ∧ exec .rdCap s = .refused .hostAccessWhileBusy ∧
    exec .genN s = .refused .hostAccessWhileBusy ∧ exec .genM s = .refused .hostAccessWhileBusy ∧
    exec .genW s = .refused .hostAccessWhileBusy

/-- RD.STATUS in every PHASE: the STATUS word, with no side effect (that `reply` holds what a read returned is the model's form
of the result, here and in the reads below, log 10); its fields are those of R49 (45_host_access R104,
30_encoding R49, 10_state R19). -/
def Obligations.ReadStatusResult : Prop :=
  ∀ s : State, ∃ v : Word, exec .rdStatus s = .next { s with reply := .word v } ∧
    v.extractLsb' 8 24 = 0#24 ∧ v.extractLsb' 4 4 = s.errcode ∧ v.getLsbD 3 = false ∧
    (v.getLsbD 2 = true ↔ s.phase = .fault) ∧ (v.getLsbD 1 = true ↔ s.phase = .done) ∧
    (v.getLsbD 0 = true ↔
      (s.phase = .repl ∨ s.phase = .col ∨ s.phase = .diag ∨ s.phase = .final ∨ s.phase = .ser))

/-- The only values of the STATUS word, in every state that satisfies the control invariant (30_encoding R49). -/
def Obligations.StatusWordValues : Prop :=
  ∀ s : State, ControlInv s →
    (s.phase = .idle → statusWord s = 0x00#32) ∧
    (busyFlag s.phase = true → statusWord s = 0x01#32) ∧
    (s.phase = .done → statusWord s = 0x02#32) ∧
    (s.phase = .fault → statusWord s = 0x14#32 ∨ statusWord s = 0x24#32 ∨ statusWord s = 0x34#32)

/-- RD.BYTES when not BUSY: BYTES, with no side effect (45_host_access R105). -/
def Obligations.ReadBytesResult : Prop :=
  ∀ s : State, busyFlag s.phase = false → exec .rdBytes s = .next { s with reply := .word s.bytes }

/-- RD.CAP: HOST code 0x40, OUT_CAP, no side effect, 0 after reset (45_host_access R107). -/
def Obligations.ReadCapacityResult : Prop :=
  (∀ d : Word, decode (.host 0x40#8 d) = .ok .rdCap) ∧
  (∀ s : State, busyFlag s.phase = false → exec .rdCap s = .next { s with reply := .word s.outCap }) ∧
  (∃ t, exec .rdCap State.reset = .next t ∧ t.reply = .word 0#32)

/-- RD.S j when not BUSY: S[j] if SV[j] = 1, and refused if SV[j] = 0 (45_host_access R106). -/
def Obligations.ReadStateWordResult : Prop :=
  ∀ (s : State) (j : Fin 16), busyFlag s.phase = false →
    (s.sv[j] = true → exec (.rdS j.val) s = .next { s with reply := .word s.sReg[j] }) ∧
    (s.sv[j] = false → exec (.rdS j.val) s = .refused .unwrittenStateWord)

/-- RD.KS off when not BUSY and off < OUT_CAP: the byte the buffer holds there, or, where nothing has been written, some
byte (93_implementation_defined U11; log 7); no side effect (45_host_access R108). -/
def Obligations.ReadKeystreamResult : Prop :=
  ∀ (s : State) (off : Word), busyFlag s.phase = false → off.toNat < s.outCap.toNat →
    ∃ b : Byte, exec (.rdKs off) s = .next { s with reply := .byte b } ∧
      (∀ v, s.ks.read off.toNat = some v → b = v)

/-! ### The internal operations -/

/-- REPL: rows `i < N` of W and ORIG are the state with word 12 increased by `i` modulo 2^32, the other rows are not
written, RND is 0, PHASE is COL, and nothing else changes (41_state_replicator R71, R74, R75). That REPL clears the model's own
`sitesDone` is the model's (log 11). -/
def Obligations.ReplicateResult : Prop :=
  ∀ s : State, s.phase = .repl → ∃ w' orig', exec .repl s =
      .next { s with w := w', orig := orig', rnd := 0#4, phase := .col, sitesDone := Vector.replicate 4 false } ∧
    (∀ i j : Fin 16, i.val < blockCount s.tierl →
      w'[i][j] = (if j.val = 12 then s.sReg[12] + BitVec.ofNat 32 i.val else s.sReg[j]) ∧
      orig'[i][j] = w'[i][j] ∧
      (w'[i][12]).toNat = (s.sReg[12].toNat + i.val) % 2 ^ 32) ∧
    (∀ i : Fin 16, blockCount s.tierl ≤ i.val → w'[i] = s.w[i] ∧ orig'[i] = s.orig[i])

/-- The quarter round, word by word, at four distinct indexes: the other twelve words are not touched
(42_quarter_round_engine R78). -/
def Obligations.QuarterRoundWords : Prop :=
  ∀ (w : Block) (a b c d : Fin 16), a ≠ b → a ≠ c → a ≠ d → b ≠ c → b ≠ d → c ≠ d →
    let a1 := w[a] + w[b]
    let d1 := rotl (w[d] ^^^ a1) 16
    let c1 := w[c] + d1
    let b1 := rotl (w[b] ^^^ c1) 12
    let a2 := a1 + b1
    let d2 := rotl (d1 ^^^ a2) 8
    let c2 := c1 + d2
    let b2 := rotl (b1 ^^^ c2) 7
    (quarterRound w a b c d)[a] = a2 ∧ (quarterRound w a b c d)[b] = b2 ∧ (quarterRound w a b c d)[c] = c2 ∧
    (quarterRound w a b c d)[d] = d2 ∧
    (∀ j : Fin 16, j ≠ a → j ≠ b → j ≠ c → j ≠ d → (quarterRound w a b c d)[j] = w[j])

/-- `rotl` is the circular left rotation: bit `k` goes to bit `(k + n) mod 32`, and its number is the formula of 00_scope R7. -/
def Obligations.RotlIsCircular : Prop :=
  ∀ (v : Word) (n : Nat), 0 < n → n < 32 →
    (∀ k, k < 32 → (rotl v n).getLsbD ((k + n) % 32) = v.getLsbD k) ∧
    (rotl v n).toNat = (v.toNat <<< n) % 2 ^ 32 ||| v.toNat >>> (32 - n)

/-- COLROUND: PHASE becomes DIAG, rows `i < N` of W have the column round's four quarter rounds applied (those a per-site
step has not applied already, log 11), the other rows and everything else are unchanged (42_quarter_round_engine R79). -/
def Obligations.ColumnRoundResult : Prop :=
  ∀ s : State, s.phase = .col → ∃ w', exec .colround s =
      .next { s with w := w', phase := .diag, sitesDone := Vector.replicate 4 false } ∧
    (s.sitesDone = Vector.replicate 4 false → ∀ i : Fin 16, i.val < blockCount s.tierl →
      w'[i] = quarterRound (quarterRound (quarterRound (quarterRound s.w[i] 0 4 8 12) 1 5 9 13) 2 6 10 14) 3 7 11 15) ∧
    (∀ i : Fin 16, i.val < blockCount s.tierl → w'[i] = restOfRound 0 s.sitesDone s.w[i]) ∧
    (∀ i : Fin 16, blockCount s.tierl ≤ i.val → w'[i] = s.w[i])

/-- DIAGROUND: RND counts, PHASE becomes FINAL when RND becomes 10 and COL otherwise, rows `i < N` of W have the diagonal
round's four quarter rounds applied (those a per-site step has not applied already, log 11), the other rows and everything
else are unchanged (42_quarter_round_engine R80). -/
def Obligations.DiagonalRoundResult : Prop :=
  ∀ s : State, s.phase = .diag → ∃ w' p, exec .diaground s =
      .next { s with w := w', rnd := s.rnd + 1, phase := p, sitesDone := Vector.replicate 4 false } ∧
    (s.rnd = 9#4 → p = .final) ∧ (s.rnd ≠ 9#4 → p = .col) ∧
    (s.sitesDone = Vector.replicate 4 false → ∀ i : Fin 16, i.val < blockCount s.tierl →
      w'[i] = quarterRound (quarterRound (quarterRound (quarterRound s.w[i] 0 5 10 15) 1 6 11 12) 2 7 8 13) 3 4 9 14) ∧
    (∀ i : Fin 16, i.val < blockCount s.tierl → w'[i] = restOfRound 1 s.sitesDone s.w[i]) ∧
    (∀ i : Fin 16, blockCount s.tierl ≤ i.val → w'[i] = s.w[i])

/-- QR at a site of the round in progress that has not been applied: that quarter round on every row `i < N` of W, and
nothing else but the model's own mark (42_quarter_round_engine R78, R83; 30_encoding R51; log 11). -/
def Obligations.QuarterRoundSiteResult : Prop :=
  ∀ (s : State) (h : Fin 2) (q : Fin 4), s.phase = phaseOfHalf h.val → s.sitesDone[q] = false →
    ∃ w', exec (.qr h.val q.val) s = .next { s with w := w', sitesDone := s.sitesDone.set q true } ∧
      (∀ i : Fin 16, i.val < blockCount s.tierl →
        w'[i] = quarterRound s.w[i] (siteIndexes h.val q.val).1 (siteIndexes h.val q.val).2.1
          (siteIndexes h.val q.val).2.2.1 (siteIndexes h.val q.val).2.2.2) ∧
      (∀ i : Fin 16, blockCount s.tierl ≤ i.val → w'[i] = s.w[i])

/-- Per-site steps refine the round: after a quarter round of the round in progress, the round's own operation ends in the
very state it ends in without it (40_generate_command R64 "a model may refine a step into per-block or per-site steps";
42_quarter_round_engine R85). -/
def Obligations.SiteStepsRefineTheRound : Prop :=
  ∀ (s : State) (q : Fin 4), s.sitesDone[q] = false →
    (s.phase = .col → ∃ t, exec (.qr 0 q.val) s = .next t ∧ exec .colround t = exec .colround s) ∧
    (s.phase = .diag → ∃ t, exec (.qr 1 q.val) s = .next t ∧ exec .diaground t = exec .diaground s)

/-- Disjointness: in each round every word index is touched by exactly one of the four sites, the indexes of a site are
distinct, and the quarter rounds of one round commute (42_quarter_round_engine R85). -/
def Obligations.QuarterRoundsOfARoundCommute : Prop :=
  (∀ (h : Fin 2) (j : Fin 16), ∃! q : Fin 4,
    j = (siteIndexes h.val q.val).1 ∨ j = (siteIndexes h.val q.val).2.1 ∨ j = (siteIndexes h.val q.val).2.2.1 ∨
      j = (siteIndexes h.val q.val).2.2.2) ∧
  (∀ (h : Fin 2) (q : Fin 4), [(siteIndexes h.val q.val).1, (siteIndexes h.val q.val).2.1,
    (siteIndexes h.val q.val).2.2.1, (siteIndexes h.val q.val).2.2.2].Nodup) ∧
  (∀ (h : Fin 2) (q q' : Fin 4) (w : Block),
    quarterRoundAt h.val q.val (quarterRoundAt h.val q'.val w) =
      quarterRoundAt h.val q'.val (quarterRoundAt h.val q.val w))

/-- A row after a round depends on that row before it and, in this model, on the marks of the per-site steps (`sitesDone`, the
model's own, log 11), and on nothing else: for equal marks not on another row, the index, N or the tier
(42_quarter_round_engine R83). -/
def Obligations.RowsAreIndependent : Prop :=
  ∀ (s s' : State) (i i' : Fin 16), i.val < blockCount s.tierl → i'.val < blockCount s'.tierl →
    s.w[i] = s'.w[i'] → s.sitesDone = s'.sitesDone →
    (s.phase = .col → s'.phase = .col →
      ∃ t t', exec .colround s = .next t ∧ exec .colround s' = .next t' ∧ t.w[i] = t'.w[i']) ∧
    (s.phase = .diag → s'.phase = .diag →
      ∃ t t', exec .diaground s = .next t ∧ exec .diaground s' = .next t' ∧ t.w[i] = t'.w[i'])

/-- FINAL: rows `i < N` of W are added word-wise modulo 2^32 to the block's own saved original, PHASE is SER, the other rows
and everything else are unchanged (43_finalizer_adder R91, R92). -/
def Obligations.FeedForwardResult : Prop :=
  ∀ s : State, s.phase = .final → ∃ w', exec .finalAdd s = .next { s with w := w', phase := .ser } ∧
    (∀ i j : Fin 16, i.val < blockCount s.tierl → w'[i][j] = s.w[i][j] + s.orig[i][j]) ∧
    (∀ i : Fin 16, blockCount s.tierl ≤ i.val → w'[i] = s.w[i])

/-- SER: byte `k` of word `j` of row `i < N` stands at offset `64i + 4j + k`, every byte at or above `64N` reads as before,
BYTES is N*64, PHASE is DONE, and nothing else changes but W and ORIG, of which nothing is said (44_output_serializer R95, R97;
20_memory R34, R38; log 6). -/
def Obligations.SerializeResult : Prop :=
  ∀ s : State, s.phase = .ser → ∃ ks' w' orig' n, exec .ser s =
      .next { s with ks := ks', bytes := byteCount s.tierl, phase := .done, w := w', orig := orig', draws := n } ∧
    (byteCount s.tierl).toNat = blockCount s.tierl * 64 ∧
    (∀ i j : Fin 16, i.val < blockCount s.tierl → ∀ k : Fin 4,
      ks'.read (64 * i.val + 4 * j.val + k.val) = some ((s.w[i][j]).extractLsb' (8 * k.val) 8)) ∧
    (∀ a, blockCount s.tierl * 64 ≤ a → ks'.read a = s.ks.read a)

/-- An internal operation outside its own PHASE is refused: the core has no such step (40_generate_command R64). That it is a
refusal is the model's choice (log 12). QR at a site of the round in progress that has been applied already is refused, which is
the model's choice too (log 11). -/
def Obligations.OperationsOutOfPhaseRefused : Prop :=
  ∀ s : State,
    (s.phase ≠ .repl → exec .repl s = .refused .outOfPhase) ∧
    (s.phase ≠ .col → exec .colround s = .refused .outOfPhase) ∧
    (s.phase ≠ .diag → exec .diaground s = .refused .outOfPhase) ∧
    (s.phase ≠ .final → exec .finalAdd s = .refused .outOfPhase) ∧
    (s.phase ≠ .ser → exec .ser s = .refused .outOfPhase) ∧
    (∀ (h : Fin 2) (q : Fin 4), s.phase ≠ phaseOfHalf h.val → exec (.qr h.val q.val) s = .refused .outOfPhase) ∧
    (∀ (h : Fin 2) (q : Fin 4), s.phase = phaseOfHalf h.val → s.sitesDone[q] = true →
      exec (.qr h.val q.val) s = .refused .siteAlreadyDone)

/-! ### Commands -/

/-- Progress: whatever the state, the core of a busy block has a step, it answers a next state, and it takes no fault
(60_exceptions R110, 70_reset_and_hazards R137). -/
def Obligations.BusyCoreAlwaysSteps : Prop :=
  ∀ s : State, busyFlag s.phase = true → s.turns = [] →
    ∃ t, step s = .next t ∧ t.phase ≠ .fault ∧ t.phase ≠ .idle ∧ t.errcode = s.errcode

/-- Each core step of a busy block brings DONE one step nearer, in every state that satisfies the control invariant
(40_generate_command R64, 70_reset_and_hazards R137). -/
def Obligations.StepsLeftCountsDown : Prop :=
  ∀ s : State, ControlInv s → busyFlag s.phase = true → s.turns = [] →
    ∃ t, step s = .next t ∧ stepsLeft t + 1 = stepsLeft s

/-- The contract of a command: from every state in which a command is accepted, it is in execution for exactly 23 core steps
and then DONE; the first N*64 bytes of the buffer are the N blocks of the reference function with counters S[12],
S[12]+1, ... modulo 2^32, whatever S[12]; BYTES is N*64; every other byte, S, SV and OUT_CAP are unchanged and no fault is taken
(40_generate_command R64, R65, R66; 41_state_replicator R74; 20_memory R38). Polling neither changes nor starves it: with any
number of RD.STATUS placed anywhere among the 23 core turns the end is the same state, but for the host's own `reply`
(45_host_access R104, 70_reset_and_hazards R137; log 1, 10). -/
def Obligations.CommandMeetsTheReference : Prop :=
  ∀ (s : State) (c : Word) (k : Tier), commandTier c = some k → commandReady k s → s.turns = [] →
    ∃ u t : State, exec (.wrCmd c) s = .next u ∧
      (∀ n, n < 23 → ∃ v : State, Host.Core.run Sys2Proof.core n u = .next v ∧ busyFlag v.phase = true) ∧
      Host.Core.run Sys2Proof.core 23 u = .next t ∧
      t.phase = .done ∧ t.tierl = k ∧ t.bytes.toNat = blockCount k * 64 ∧
      (∀ a, a < blockCount k * 64 → t.ks.read a = some (keystreamByte s.sReg a)) ∧
      (∀ a, blockCount k * 64 ≤ a → t.ks.read a = s.ks.read a) ∧
      t.sReg = s.sReg ∧ t.sv = s.sv ∧ t.outCap = s.outCap ∧ t.errcode = s.errcode ∧
      (∀ moves : List Turn, (∀ m ∈ moves, m = .core ∨ ∃ d, m = .packet (.host 0x48#8 d)) → moves.count .core = 23 →
        exec (.wrCmd c) { s with turns := moves } = .next { u with turns := moves } ∧
        ∃ v : State, Host.Core.run Sys2Proof.core moves.length ({ u with turns := moves } : State) = .next v ∧
          v = { t with reply := v.reply })

/-- Tier independence of content: the first min(N1, N2)*64 bytes two tiers write for one S are identical
(40_generate_command R67). -/
def Obligations.TierIndependenceOfContent : Prop :=
  ∀ (s : State) (c1 c2 : Word) (k1 k2 : Tier), commandTier c1 = some k1 → commandTier c2 = some k2 →
    commandReady k1 s → commandReady k2 s → s.turns = [] →
    ∃ t1 t2, commandRun c1 s t1 ∧ commandRun c2 s t2 ∧
      ∀ a, a < min (blockCount k1) (blockCount k2) * 64 →
        ∃ b, t1.ks.read a = some b ∧ t2.ks.read a = some b

/-- The result of a command is a function of S and the command alone: two states that hold the same S, and differ in
everything else, end with the same bytes and the same BYTES (10_state R25). -/
def Obligations.ResultDependsOnInputsOnly : Prop :=
  ∀ (s s' : State) (c : Word) (k : Tier), commandTier c = some k → commandReady k s → commandReady k s' →
    s.turns = [] → s'.turns = [] → s.sReg = s'.sReg →
    ∃ t t', commandRun c s t ∧ commandRun c s' t' ∧ t.bytes = t'.bytes ∧
      ∀ a, a < blockCount k * 64 → t.ks.read a = t'.ks.read a

/-- The same command twice, S untouched, writes the same bytes twice; the block does not advance the counter
(40_generate_command R68, 70_reset_and_hazards R133). -/
def Obligations.RepeatedCommandWritesTheSameBytes : Prop :=
  ∀ (s : State) (c : Word) (k : Tier), commandTier c = some k → commandReady k s → s.turns = [] →
    ∃ t t', commandRun c s t ∧ commandRun c t t' ∧ t'.bytes = t.bytes ∧ t'.sReg = s.sReg ∧
      ∀ a, t'.ks.read a = t.ks.read a

/-- The host advancing the counter word continues the keystream: a command of tier `k1`, then WR.S 12 of the counter increased by
its block count, then a command of tier `k2`, write what one command of tier `k` writes, as far as they go: the first what stands
from offset 0, the second what stands from where the first ended. So two Narrow commands give what one Medium command gives
(70_reset_and_hazards R133, 40_generate_command R66; 95_test_vectors P2). -/
def Obligations.AdvancedCounterContinuesTheKeystream : Prop :=
  ∀ (s s' : State) (c1 c2 c : Word) (k1 k2 k : Tier),
    commandTier c1 = some k1 → commandTier c2 = some k2 → commandTier c = some k →
    commandReady k1 s → commandReady k2 s → commandReady k s' → s.turns = [] → s'.turns = [] → s.sReg = s'.sReg →
    blockCount k1 + blockCount k2 ≤ blockCount k →
    ∃ t1 u t2 t, commandRun c1 s t1 ∧ exec (.wrS 12 (s.sReg[12] + BitVec.ofNat 32 (blockCount k1))) t1 = .next u ∧
      commandRun c2 u t2 ∧ commandRun c s' t ∧
      (∀ a, a < blockCount k1 * 64 → ∃ b, t1.ks.read a = some b ∧ t.ks.read a = some b) ∧
      (∀ a, a < blockCount k2 * 64 → ∃ b, t2.ks.read a = some b ∧ t.ks.read (blockCount k1 * 64 + a) = some b)

/-! ### What changes what -/

/-- S and SV change by WR.S and RESET only, OUT_CAP by WR.CAP and RESET only: the core never writes them
(10_state R10, R12, R27; 41_state_replicator R72). -/
def Obligations.InputsChangeByTheHostOnly : Prop :=
  ∀ (i : Instr) (s t : State), exec i s = .next t → i ≠ .reset →
    ((∀ j v, i ≠ .wrS j v) → t.sReg = s.sReg ∧ t.sv = s.sv) ∧
    ((∀ v, i ≠ .wrCap v) → t.outCap = s.outCap)

/-- SER is the only operation that writes the buffer, and RESET outside a command leaves it as it is (20_memory R36, R31;
60_exceptions R118; 70_reset_and_hazards R126); its free bytes stay the same ones too (log 7, 8). -/
def Obligations.BufferWrittenBySerOnly : Prop :=
  ∀ (i : Instr) (s t : State), exec i s = .next t → i ≠ .ser →
    (i = .reset → busyFlag s.phase = false) → t.ks = s.ks ∧ t.epoch = s.epoch ∧ t.launch = s.launch

/-- TIERL changes by an accepted command only, RND by REPL and DIAGROUND only, ERRCODE by a command's fault only, BYTES by a
command and SER only (RESET apart): the writers of 10_state R27. -/
def Obligations.ControlRegistersHaveTheirWriters : Prop :=
  ∀ (i : Instr) (s t : State), exec i s = .next t → i ≠ .reset →
    (t.tierl ≠ s.tierl → (i = .genN ∨ i = .genM ∨ i = .genW ∨ ∃ c, i = .wrCmd c) ∧ atRest s ∧ t.phase = .repl) ∧
    (i ≠ .repl → i ≠ .diaground → t.rnd = s.rnd) ∧
    (t.errcode ≠ s.errcode →
      (i = .genN ∨ i = .genM ∨ i = .genW ∨ ∃ c, i = .wrCmd c) ∧ atRest s ∧ t.phase = .fault ∧ t.bytes = 0#32) ∧
    (i ≠ .genN → i ≠ .genM → i ≠ .genW → (∀ c, i ≠ .wrCmd c) → i ≠ .ser → t.bytes = s.bytes)

/-- No host access but a command moves PHASE, W or ORIG, and what an access answers and changes does not depend on W, ORIG, RND
or TIERL: none of them is readable by an access (10_state R15, R17, R27; 60_exceptions R124). -/
def Obligations.AccessesLeaveTheSequencer : Prop :=
  ∀ (s t : State) (i : Instr),
    (i = .rdStatus ∨ i = .rdBytes ∨ i = .rdCap ∨ (∃ j, i = .rdS j) ∨ (∃ off, i = .rdKs off) ∨
      (∃ j v, i = .wrS j v) ∨ (∃ v, i = .wrCap v)) →
    exec i s = .next t →
      t.phase = s.phase ∧ t.w = s.w ∧ t.orig = s.orig ∧ t.sitesDone = s.sitesDone ∧
      t.rnd = s.rnd ∧ t.tierl = s.tierl ∧
      (∀ w' orig' rnd' tierl', exec i { s with w := w', orig := orig', rnd := rnd', tierl := tierl' } =
        .next { t with w := w', orig := orig', rnd := rnd', tierl := tierl' })

/-! ### Invariants -/

/-- The buffer stays in its canonical form, from every state. The form (a list of offsets and bytes, offsets strictly rising) is
the model's own representation of the KS space of 20_memory (log 7). -/
def Obligations.BufferStaysCanonical : Prop :=
  ∀ s t : State, s.ks.wf → step s = .next t → t.ks.wf

/-- Every step keeps the control invariant: RND 0 to 10, ERRCODE nonzero exactly in FAULT, BYTES N*64 or 0, a busy block's
state complete and its buffer large enough (10_state R16, R21; 30_encoding R49; 40_generate_command R60; 42_quarter_round_engine R80). -/
def Obligations.StepKeepsControl : Prop :=
  ∀ s t : State, ControlInv s → step s = .next t → ControlInv t

/-- Every step keeps the run invariant: besides the control invariant, row `i < N` of W is the reference computation on
`S@i` as far as it has come, and ORIG holds `S@i` until FINAL has used it (41_state_replicator R71, R75; 42_quarter_round_engine R81, R82,
R89; 43_finalizer_adder R91). -/
def Obligations.StepKeepsTheReferenceComputation : Prop :=
  ∀ s t : State, RunInv s → step s = .next t → RunInv t

/-- The invariants hold after reset. -/
def Obligations.ResetSatisfiesTheInvariants : Prop :=
  RunInv State.reset

/-! ### Reset -/

/-- The reset values the spec gives, and the STATUS word they make (10_state R26, 70_reset_and_hazards R127). -/
def Obligations.ResetValues : Prop :=
  State.reset.phase = .idle ∧ State.reset.rnd = 0#4 ∧ State.reset.errcode = 0#4 ∧ State.reset.bytes = 0#32 ∧
  (∀ j : Fin 16, State.reset.sv[j] = false) ∧ State.reset.outCap = 0#32 ∧ statusWord State.reset = 0x00000000#32

/-- RESET in any PHASE: PHASE IDLE, RND, ERRCODE, BYTES and OUT_CAP 0, SV all 0; of S, TIERL, W and ORIG nothing is said.
The buffer is untouched where no command runs; where one runs, nothing is said of any byte of it (70_reset_and_hazards R126).
That the host's own side, `reply` and `turns`, is kept and the model's own `sitesDone` cleared is the model's (log 17, 11). -/
def Obligations.ResetResult : Prop :=
  ∀ s : State, ∃ sReg' tierl' w' orig' ks' n e, exec .reset s =
      .next { s with
        phase := .idle, rnd := 0#4, errcode := 0#4, bytes := 0#32, sv := Vector.replicate 16 false, outCap := 0#32,
        sReg := sReg', tierl := tierl', w := w', orig := orig', ks := ks', draws := n, epoch := e,
        sitesDone := Vector.replicate 4 false } ∧
    (busyFlag s.phase = false → ks' = s.ks ∧ e = s.epoch)

/-- After RESET a legal command faults E_STATE: the words must be written again (70_reset_and_hazards R128). -/
def Obligations.CommandAfterResetFaults : Prop :=
  ∀ (s : State) (c : Word) (k : Tier), commandTier c = some k →
    ∃ u t, exec .reset s = .next u ∧ exec (.wrCmd c) u = .next t ∧ faultEntered 2#4 u t

/-! ### The buffer space and the vector organisations -/

/-- `MemWrite(off, 4, v)`: `v[8k+7:8k]` at `off + k`, and every other offset reads as before (20_memory R33). -/
def Obligations.MemWriteIsLittleEndian : Prop :=
  ∀ (m : Memory) (off : Nat) (v : Word),
    (∀ k : Fin 4, (memWrite m off 4 v).read (off + k.val) = some (v.extractLsb' (8 * k.val) 8)) ∧
    (∀ a, (a < off ∨ off + 4 ≤ a) → (memWrite m off 4 v).read a = m.read a)

/-- The row organisation equals the direct one, for a group of any number of blocks: both rounds, the diagonal one by
rotating lanes and back (42_quarter_round_engine R86, R88). -/
def Obligations.RowOrganisationEqualsDirect : Prop :=
  ∀ blocks : List Block,
    colroundRows (packRows blocks) = packRows (blocks.map colround1) ∧
    diagroundRows (packRows blocks) = packRows (blocks.map diaground1)

/-- The word-sliced quarter round equals the quarter round of every block (42_quarter_round_engine R87). -/
def Obligations.SlicedOrganisationEqualsDirect : Prop :=
  ∀ (blocks : List Block) (a b c d : Fin 16),
    quarterRoundSliced (packSliced blocks) a b c d = packSliced (blocks.map fun w => quarterRound w a b c d)

/-- The vector form of REPL, broadcast and add the delta table, gives the working copies `S@0` to `S@(N-1)`
(41_state_replicator R71, R73; 10_state R20). -/
def Obligations.VectorReplicatorEqualsReplicate : Prop :=
  ∀ (t : Tier) (s : Block),
    replicateSliced t s = packSliced ((List.range (blockCount t)).map (advanceCounter s))

/-- De-interleaving: the lane that R96 sends to an offset holds the word that stands there in the direct layout, in both
organisations (44_output_serializer R95, R96). -/
def Obligations.DeinterleavedLanesStandAtTheDirectOffsets : Prop :=
  ∀ (blocks : List Block) (g : Nat) (hg : g < blocks.length),
    (∀ (g0 : Nat) (r k : Fin 4),
      (packRow r blocks)[4 * g + k.val]? = some ((blocks[g])[4 * r.val + k.val]) ∧
      rowLaneOffset g0 g r.val k.val = 64 * (g0 + g) + 4 * (4 * r.val + k.val)) ∧
    (∀ j : Fin 16,
      (packSliced blocks)[j][g]? = some ((blocks[g])[j]) ∧ slicedLaneOffset g j.val = 64 * g + 4 * j.val)

/-- Commands of different instances need no ordering: among any instances, with whatever commands they run, and under every
schedule that gives one of them 23 steps or more, a command accepted by that one ends DONE with its own reference keystream, and
no step of the schedule is stopped (20_memory R42, 60_exceptions R123, 40_generate_command R66). R64 gives a resting block no
step: that a step of the schedule at a resting instance, or past the 23 of the command, leaves that instance as it is and goes
on, is the model's choice (log 2). -/
def Obligations.InstancesAreUnordered : Prop :=
  ∀ (all : Instances) (k : Nat) (s u : State) (c : Word) (t : Tier) (schedule : List Nat),
    commandTier c = some t → commandReady t s → exec (.wrCmd c) s = .next u → all[k]? = some u →
    (∀ a ∈ all, a.turns = []) → (∀ l ∈ schedule, l < all.length) → 23 ≤ schedule.count k →
    ∃ all' v, runInstances schedule all = some all' ∧ all'[k]? = some v ∧
      v.phase = .done ∧ v.bytes = byteCount t ∧ v.sReg = s.sReg ∧
      (∀ a, a < blockCount t * 64 → v.ks.read a = some (keystreamByte s.sReg a)) ∧
      (∀ a, blockCount t * 64 ≤ a → v.ks.read a = s.ks.read a)
end

