-- ==== Sys2Proof/Laws/Blocks.lean ====
section
/-! SUPPORT. What the operations on blocks and block files give, word by word and row by row. -/

namespace Sys2Proof.Machine

theorem getElem_mapRows (n : Nat) (g : Fin 16 → Block → Block) (f : BlockFile) (i : Fin 16) :
    (mapRows n g f)[i] = if i.val < n then g i f[i] else f[i] := by
  simp [mapRows]

theorem rows_ext {f g : BlockFile} (h : ∀ i : Fin 16, f[i] = g[i]) : f = g := by
  ext1 i hi
  exact h ⟨i, hi⟩

theorem block_ext {a b : Block} (h : ∀ j : Fin 16, a[j] = b[j]) : a = b := by
  ext1 j hj
  exact h ⟨j, hj⟩

theorem mapRows_mapRows (n : Nat) (g h : Fin 16 → Block → Block) (f : BlockFile) :
    mapRows n g (mapRows n h f) = mapRows n (fun i b => g i (h i b)) f := by
  refine rows_ext fun i => ?_
  simp only [getElem_mapRows]
  split <;> rfl

/-- Every tier's delta for one of its blocks is the block's index (10_state R20). -/
theorem delta_eq (t : Tier) {i : Nat} (h : i < blockCount t) : Config.delta t i = BitVec.ofNat 32 i := by
  cases t <;> simp only [blockCount] at h <;> interval_cases i <;> rfl

theorem blockCount_le (t : Tier) : blockCount t ≤ 16 := by cases t <;> decide

theorem blockCount_pos (t : Tier) : 0 < blockCount t := by cases t <;> decide

theorem byteCount_toNat (t : Tier) : (byteCount t).toNat = blockCount t * 64 := by cases t <;> rfl

theorem getElem_advanceCounter (s : Block) (i : Nat) (j : Fin 16) :
    (advanceCounter s i)[j] = if j.val = 12 then s[12] + BitVec.ofNat 32 i else s[j] := by
  simp only [advanceCounter, Fin.getElem_fin, Vector.getElem_set]
  split
  · rw [if_pos (by omega)]
  · rw [if_neg (by omega)]

/-- The replicator's copy is `S@i` (41_state_replicator R71). -/
theorem replicaOf_eq (t : Tier) (s : Block) {i : Nat} (h : i < blockCount t) :
    replicaOf t s i = advanceCounter s i := by
  refine block_ext fun j => ?_
  rw [getElem_advanceCounter]
  simp [replicaOf, delta_eq t h]

theorem getElem_addBlocks (a b : Block) (j : Fin 16) : (addBlocks a b)[j] = a[j] + b[j] := by
  simp [addBlocks]

/-- One line of the quarter round, word by word, at distinct `x` and `z` (42_quarter_round_engine R78). -/
theorem getElem_addXorRotl (w : Block) {x z : Fin 16} (hxz : x ≠ z) (y : Fin 16) (n : Nat) (j : Fin 16) :
    (addXorRotl w x y z n)[j] =
      if j = z then rotl (w[z] ^^^ (w[x] + w[y])) n else if j = x then w[x] + w[y] else w[j] := by
  obtain ⟨j, hj⟩ := j
  obtain ⟨x, hx⟩ := x
  obtain ⟨z, hz⟩ := z
  have hne : x ≠ z := fun h => hxz (by simp [h])
  simp only [addXorRotl, Fin.getElem_fin, Vector.getElem_set, Fin.mk.injEq, hne, if_true, if_false]
  by_cases h1 : j = z
  · subst h1; simp
  · by_cases h2 : j = x
    · subst h2; simp [h1, Ne.symm h1]
    · simp [h1, h2, Ne.symm h1, Ne.symm h2]

theorem restOfRound_none (h : Nat) (w : Block) :
    restOfRound h (Vector.replicate 4 false) w =
      quarterRoundAt h 3 (quarterRoundAt h 2 (quarterRoundAt h 1 (quarterRoundAt h 0 w))) := by
  simp [restOfRound, siteUnlessDone]

theorem restOfRound_zero_none (w : Block) : restOfRound 0 (Vector.replicate 4 false) w = colround1 w :=
  restOfRound_none 0 w

theorem restOfRound_one_none (w : Block) : restOfRound 1 (Vector.replicate 4 false) w = diaground1 w :=
  restOfRound_none 1 w

/-- A block is its sixteen words. -/
theorem block_eta (w : Block) :
    w = #v[w[0], w[1], w[2], w[3], w[4], w[5], w[6], w[7], w[8], w[9], w[10], w[11], w[12], w[13], w[14], w[15]] := by
  refine block_ext fun j => ?_
  fin_cases j <;> rfl

theorem stateComplete_iff (sv : Vector Bool 16) : stateComplete sv = true ↔ ∀ j : Fin 16, sv[j] = true := by
  simp only [stateComplete, List.all_eq_true, id]
  constructor
  · intro h j
    exact h _ (by simp)
  · intro h x hx
    obtain ⟨i, hi, rfl⟩ := List.mem_iff_getElem.1 hx
    have hi' : i < 16 := by simpa using hi
    have := h ⟨i, hi'⟩
    simpa using this

end Sys2Proof.Machine
end

