-- ==== Sys2Proof/Laws/Instances.lean ====
section
/-! SUPPORT. Steps of instances side by side: a step of one changes that one only. -/

namespace Sys2Proof.Machine

/-- Where an instance's own step answers a next state, its step among others puts that state in its place. -/
theorem stepInstance_of_next {k : Nat} {all : Instances} {s t : State} (hs : all[k]? = some s) (h : step s = .next t) :
    stepInstance k all = some (all.set k t) := by
  simp [stepInstance, hs, h]

/-- Everything a step of an instance can do. -/
theorem stepInstance_some {k : Nat} {all all' : Instances} (h : stepInstance k all = some all') :
    ∃ s t, all[k]? = some s ∧ step s = .next t ∧ all' = all.set k t := by
  unfold stepInstance at h
  split at h
  · cases h
  · rename_i s hs
    split at h
    · rename_i t ht
      exact ⟨s, t, hs, ht, (Option.some.inj h).symm⟩
    · cases h
    · cases h

/-- A schedule is its first step and the rest. -/
theorem runInstances_cons {k : Nat} {rest : List Nat} {all all' : Instances} (h : stepInstance k all = some all') :
    runInstances (k :: rest) all = runInstances rest all' := by
  simp [runInstances, h]

end Sys2Proof.Machine
end

