-- ==== Sys2Proof/Laws/Memory.lean ====
section
/-! SUPPORT. The laws of the keystream buffer space: a read after a write to the same place gives the value written, a
write leaves every other place alone, every memory operation keeps the canonical form, and equal contents in canonical form
are equal lists. -/

namespace Sys2Proof.Machine

theorem Memory.wf_nil : Memory.wf [] := List.Pairwise.nil

theorem Memory.read_write_same (m : Memory) (a : Nat) (v : Byte) : (m.write a v).read a = some v := by
  induction m with
  | nil => simp [Memory.write, Memory.read]
  | cons c rest ih =>
    obtain ⟨b, u⟩ := c
    unfold Memory.write
    split
    · simp [Memory.read]
    · split
      · simp [Memory.read]
      · rename_i _ hne
        simp [Memory.read, hne, ih]

theorem Memory.read_write_ne (m : Memory) {a b : Nat} (v : Byte) (h : b ≠ a) :
    (m.write a v).read b = m.read b := by
  induction m with
  | nil => simp [Memory.write, Memory.read, h]
  | cons c rest ih =>
    obtain ⟨d, u⟩ := c
    unfold Memory.write
    split
    · simp [Memory.read, h]
    · split
      · rename_i _ hd
        subst hd
        simp [Memory.read, h]
      · simp [Memory.read, ih]

theorem Memory.read_write (m : Memory) (a b : Nat) (v : Byte) :
    (m.write a v).read b = if b = a then some v else m.read b := by
  split
  · rename_i h
    rw [h, Memory.read_write_same]
  · exact Memory.read_write_ne m v ‹_›

/-- Every offset of a written memory is the written one or was there before. -/
theorem Memory.mem_write {m : Memory} {a : Nat} {v : Byte} {c : Host.Cell} (h : c ∈ m.write a v) :
    c.1 = a ∨ c ∈ m := by
  induction m with
  | nil =>
    simp only [Memory.write, List.mem_singleton] at h
    exact .inl (by rw [h])
  | cons d rest ih =>
    obtain ⟨b, u⟩ := d
    unfold Memory.write at h
    split at h
    · rcases List.mem_cons.1 h with h | h
      · exact .inl (by rw [h])
      · exact .inr h
    · split at h
      · rcases List.mem_cons.1 h with h | h
        · exact .inl (by rw [h])
        · exact .inr (List.mem_cons_of_mem _ h)
      · rcases List.mem_cons.1 h with h | h
        · exact .inr (by rw [h]; exact List.mem_cons_self)
        · rcases ih h with h | h
          · exact .inl h
          · exact .inr (List.mem_cons_of_mem _ h)

theorem Memory.wf_write {m : Memory} (hm : m.wf) (a : Nat) (v : Byte) : (m.write a v).wf := by
  induction m with
  | nil => simp [Memory.write, Memory.wf]
  | cons c rest ih =>
    obtain ⟨b, u⟩ := c
    obtain ⟨hb, hr⟩ := List.pairwise_cons.1 hm
    unfold Memory.write
    split
    · rename_i hab
      refine List.pairwise_cons.2 ⟨fun d hd => ?_, hm⟩
      rcases List.mem_cons.1 hd with hd | hd
      · rw [hd]; exact hab
      · exact Nat.lt_trans hab (hb d hd)
    · split
      · rename_i hab
        subst hab
        exact List.pairwise_cons.2 ⟨hb, hr⟩
      · refine List.pairwise_cons.2 ⟨fun d hd => ?_, ih hr⟩
        rcases Memory.mem_write hd with hd | hd
        · simp only [hd]; omega
        · exact hb d hd

theorem wf_memWrite {m : Memory} (hm : m.wf) (off n : Nat) (v : Word) : (memWrite m off n v).wf := by
  induction n generalizing m off v with
  | zero => exact hm
  | succ n ih => exact ih (Memory.wf_write hm _ _) _ _

theorem wf_writeWords {m : Memory} (hm : m.wf) (off : Nat) (vs : List Word) : (writeWords m off vs).wf := by
  induction vs generalizing m off with
  | nil => exact hm
  | cons v vs ih => exact ih (wf_memWrite hm _ _ _) _

/-- RESET leaves the buffer in its form. -/
theorem wf_bufferAfterReset {s : State} (h : s.ks.wf) : (bufferAfterReset s).1.wf := by
  unfold bufferAfterReset
  split
  · exact List.Pairwise.nil
  · exact h

/-- RESET outside a command leaves the buffer as it is. -/
theorem bufferAfterReset_rest {s : State} (h : busyFlag s.phase = false) : bufferAfterReset s = (s.ks, s.epoch) := by
  simp [bufferAfterReset, h]

theorem wf_serializeRows {m : Memory} (hm : m.wf) (w : BlockFile) (n : Nat) : (serializeRows w m n).wf := by
  induction n with
  | zero => exact hm
  | succ n ih => exact wf_writeWords ih _ _

/-- Nothing is read below the first listed offset. -/
theorem Memory.read_eq_none_of_lt {m : Memory} {a : Nat} (h : ∀ c ∈ m, a < c.1) : m.read a = none := by
  induction m with
  | nil => rfl
  | cons c rest ih =>
    obtain ⟨b, u⟩ := c
    have hb : a < b := h (b, u) List.mem_cons_self
    simp only [Memory.read, Nat.ne_of_lt hb, if_false]
    exact ih fun d hd => h d (List.mem_cons_of_mem _ hd)

/-- Memories in canonical form with the same contents are the same list. -/
theorem Memory.ext_of_read {m m' : Memory} (hm : m.wf) (hm' : m'.wf) (h : ∀ a, m.read a = m'.read a) : m = m' := by
  induction m generalizing m' with
  | nil =>
    cases m' with
    | nil => rfl
    | cons c rest =>
      have := h c.1
      simp [Memory.read] at this
  | cons c rest ih =>
    obtain ⟨b, u⟩ := c
    obtain ⟨hb, hr⟩ := List.pairwise_cons.1 hm
    cases m' with
    | nil =>
      have := h b
      simp [Memory.read] at this
    | cons c' rest' =>
      obtain ⟨b', u'⟩ := c'
      obtain ⟨hb', hr'⟩ := List.pairwise_cons.1 hm'
      have hbb : b = b' := by
        rcases Nat.lt_trichotomy b b' with hlt | heq | hgt
        · have h1 := h b
          have h2 : Memory.read ((b', u') :: rest') b = none :=
            Memory.read_eq_none_of_lt fun d hd => by
              rcases List.mem_cons.1 hd with hd | hd
              · rw [hd]; exact hlt
              · exact Nat.lt_trans hlt (hb' d hd)
          rw [h2] at h1
          simp [Memory.read] at h1
        · exact heq
        · have h1 := h b'
          have h2 : Memory.read ((b, u) :: rest) b' = none :=
            Memory.read_eq_none_of_lt fun d hd => by
              rcases List.mem_cons.1 hd with hd | hd
              · rw [hd]; exact hgt
              · exact Nat.lt_trans hgt (hb d hd)
          rw [h2] at h1
          simp [Memory.read] at h1
      subst hbb
      have hu : u = u' := by
        have := h b
        simpa [Memory.read] using this
      subst hu
      refine congrArg _ (ih hr hr' fun a => ?_)
      have ha := h a
      simp only [Memory.read] at ha
      by_cases hab : a = b
      · subst hab
        rw [Memory.read_eq_none_of_lt hb, Memory.read_eq_none_of_lt hb']
      · simpa only [hab, if_false] using ha

/-! ### What the wider writes leave -/

theorem wordByte_zero (v : Word) : wordByte v 0 = v.setWidth 8 := by simp [wordByte]

theorem wordByte_shift (v : Word) (k : Nat) : wordByte (v >>> 8) k = wordByte v (k + 1) := by
  unfold wordByte
  rw [← BitVec.shiftRight_add]
  congr 2
  omega

/-- `MemWrite(off, n, v)` writes byte `k` of `v` at `off + k` for `k < n`, and nothing else. -/
theorem read_memWrite (m : Memory) (off n : Nat) (v : Word) (a : Nat) :
    (memWrite m off n v).read a =
      if off ≤ a ∧ a < off + n then some (wordByte v (a - off)) else m.read a := by
  induction n generalizing m off v with
  | zero =>
    simp only [memWrite]
    rw [if_neg (by omega)]
  | succ n ih =>
    rw [memWrite, ih, Memory.read_write]
    by_cases h0 : a = off
    · subst h0
      have h1 : ¬(a + 1 ≤ a ∧ a < a + 1 + n) := by omega
      have h2 : a ≤ a ∧ a < a + (n + 1) := by omega
      rw [if_neg h1, if_pos rfl, if_pos h2, Nat.sub_self, wordByte_zero]
    · by_cases h1 : off + 1 ≤ a ∧ a < off + 1 + n
      · have h2 : off ≤ a ∧ a < off + (n + 1) := by omega
        rw [if_pos h1, if_pos h2, wordByte_shift]
        congr 2
        omega
      · have h2 : ¬(off ≤ a ∧ a < off + (n + 1)) := by omega
        rw [if_neg h1, if_neg h2, if_neg h0]

/-- Words written from `off`: byte `a` is byte `(a - off) mod 4` of word `(a - off) / 4`. -/
theorem read_writeWords (m : Memory) (off : Nat) (vs : List Word) (a : Nat) :
    (writeWords m off vs).read a =
      if off ≤ a ∧ a < off + 4 * vs.length then
        some (wordByte (vs.getD ((a - off) / 4) 0) ((a - off) % 4))
      else m.read a := by
  induction vs generalizing m off with
  | nil =>
    have : ¬(off ≤ a ∧ a < off + 4 * ([] : List Word).length) := by simp
    rw [if_neg this]; rfl
  | cons v vs ih =>
    rw [writeWords, ih, read_memWrite]
    simp only [List.length_cons]
    by_cases h1 : off + 4 ≤ a ∧ a < off + 4 + 4 * vs.length
    · have h2 : off ≤ a ∧ a < off + 4 * (vs.length + 1) := by omega
      have h3 : (a - off) / 4 = (a - (off + 4)) / 4 + 1 := by omega
      have h4 : (a - off) % 4 = (a - (off + 4)) % 4 := by omega
      rw [if_pos h1, if_pos h2, h3, h4]
      rfl
    · rw [if_neg h1]
      by_cases h2 : off ≤ a ∧ a < off + 4
      · have h3 : off ≤ a ∧ a < off + 4 * (vs.length + 1) := by omega
        have h4 : (a - off) / 4 = 0 := by omega
        have h5 : (a - off) % 4 = a - off := by omega
        rw [if_pos h2, if_pos h3, h4, h5]
        rfl
      · have h3 : ¬(off ≤ a ∧ a < off + 4 * (vs.length + 1)) := by omega
        rw [if_neg h2, if_neg h3]

theorem rowAt_of_lt (f : BlockFile) {i : Nat} (h : i < 16) : rowAt f i = f[i] := by
  simp [rowAt, h]

/-- What SER's writes leave: byte `a` of the first `64 * n` is byte `a mod 4` of word `(a / 4) mod 16` of row `a / 64`
(20_memory R34), and every other byte is as it was (R38). -/
theorem read_serializeRows (w : BlockFile) (m : Memory) (n a : Nat) :
    (serializeRows w m n).read a =
      if a < 64 * n then some (bytes64 (rowAt w (a / 64)) ⟨a % 64, by omega⟩) else m.read a := by
  induction n with
  | zero => simp [serializeRows]
  | succ n ih =>
    rw [serializeRows, read_writeWords, ih]
    have hl : (rowAt w n).toList.length = 16 := by simp
    rw [hl]
    by_cases h1 : 64 * n ≤ a ∧ a < 64 * n + 4 * 16
    · have h2 : a < 64 * (n + 1) := by omega
      have h3 : a / 64 = n := by omega
      rw [if_pos h1, if_pos h2, h3]
      have h4 : (a - 64 * n) / 4 = a % 64 / 4 := by omega
      have h5 : (a - 64 * n) % 4 = a % 64 % 4 := by omega
      have h6 : a % 64 / 4 < 16 := by omega
      rw [h4, h5]
      simp only [bytes64]
      congr 2
      simp [List.getD, h6]
    · rw [if_neg h1]
      by_cases h2 : a < 64 * n
      · have h3 : a < 64 * (n + 1) := by omega
        rw [if_pos h2, if_pos h3]
      · have h3 : ¬a < 64 * (n + 1) := by omega
        rw [if_neg h2, if_neg h3]

end Sys2Proof.Machine
end

