-- ==== Sys2Proof/Laws/State.lean ====
section
/-! SUPPORT. One lemma per field of State per update, each true by `rfl`, so that no later proof unfolds a record update. -/

namespace Sys2Proof.Machine

/-! ### `writeStateWord` -/

@[simp] theorem writeStateWord_sReg (s : State) (j : Fin 16) (v : Word) :
    (writeStateWord s j v).sReg = s.sReg.set j v := rfl
@[simp] theorem writeStateWord_sv (s : State) (j : Fin 16) (v : Word) :
    (writeStateWord s j v).sv = s.sv.set j true := rfl
@[simp] theorem writeStateWord_outCap (s : State) (j : Fin 16) (v : Word) :
    (writeStateWord s j v).outCap = s.outCap := rfl
@[simp] theorem writeStateWord_tierl (s : State) (j : Fin 16) (v : Word) : (writeStateWord s j v).tierl = s.tierl := rfl
@[simp] theorem writeStateWord_phase (s : State) (j : Fin 16) (v : Word) : (writeStateWord s j v).phase = s.phase := rfl
@[simp] theorem writeStateWord_rnd (s : State) (j : Fin 16) (v : Word) : (writeStateWord s j v).rnd = s.rnd := rfl
@[simp] theorem writeStateWord_errcode (s : State) (j : Fin 16) (v : Word) :
    (writeStateWord s j v).errcode = s.errcode := rfl
@[simp] theorem writeStateWord_bytes (s : State) (j : Fin 16) (v : Word) : (writeStateWord s j v).bytes = s.bytes := rfl
@[simp] theorem writeStateWord_w (s : State) (j : Fin 16) (v : Word) : (writeStateWord s j v).w = s.w := rfl
@[simp] theorem writeStateWord_orig (s : State) (j : Fin 16) (v : Word) : (writeStateWord s j v).orig = s.orig := rfl
@[simp] theorem writeStateWord_ks (s : State) (j : Fin 16) (v : Word) : (writeStateWord s j v).ks = s.ks := rfl
@[simp] theorem writeStateWord_sitesDone (s : State) (j : Fin 16) (v : Word) :
    (writeStateWord s j v).sitesDone = s.sitesDone := rfl
@[simp] theorem writeStateWord_reply (s : State) (j : Fin 16) (v : Word) : (writeStateWord s j v).reply = s.reply := rfl
@[simp] theorem writeStateWord_turns (s : State) (j : Fin 16) (v : Word) : (writeStateWord s j v).turns = s.turns := rfl
@[simp] theorem writeStateWord_draws (s : State) (j : Fin 16) (v : Word) : (writeStateWord s j v).draws = s.draws := rfl
@[simp] theorem writeStateWord_launch (s : State) (j : Fin 16) (v : Word) : (writeStateWord s j v).launch = s.launch := rfl
@[simp] theorem writeStateWord_epoch (s : State) (j : Fin 16) (v : Word) : (writeStateWord s j v).epoch = s.epoch := rfl

/-! ### `discardBlocks` -/

@[simp] theorem discardBlocks_sReg (s : State) : (discardBlocks s).sReg = s.sReg := rfl
@[simp] theorem discardBlocks_sv (s : State) : (discardBlocks s).sv = s.sv := rfl
@[simp] theorem discardBlocks_outCap (s : State) : (discardBlocks s).outCap = s.outCap := rfl
@[simp] theorem discardBlocks_tierl (s : State) : (discardBlocks s).tierl = s.tierl := rfl
@[simp] theorem discardBlocks_phase (s : State) : (discardBlocks s).phase = s.phase := rfl
@[simp] theorem discardBlocks_rnd (s : State) : (discardBlocks s).rnd = s.rnd := rfl
@[simp] theorem discardBlocks_errcode (s : State) : (discardBlocks s).errcode = s.errcode := rfl
@[simp] theorem discardBlocks_bytes (s : State) : (discardBlocks s).bytes = s.bytes := rfl
@[simp] theorem discardBlocks_w (s : State) : (discardBlocks s).w = Config.freeBlocks s.launch s.draws := rfl
@[simp] theorem discardBlocks_orig (s : State) : (discardBlocks s).orig = Config.freeBlocks s.launch (s.draws + 1) := rfl
@[simp] theorem discardBlocks_ks (s : State) : (discardBlocks s).ks = s.ks := rfl
@[simp] theorem discardBlocks_sitesDone (s : State) : (discardBlocks s).sitesDone = s.sitesDone := rfl
@[simp] theorem discardBlocks_reply (s : State) : (discardBlocks s).reply = s.reply := rfl
@[simp] theorem discardBlocks_turns (s : State) : (discardBlocks s).turns = s.turns := rfl
@[simp] theorem discardBlocks_draws (s : State) : (discardBlocks s).draws = s.draws + 2 := rfl
@[simp] theorem discardBlocks_launch (s : State) : (discardBlocks s).launch = s.launch := rfl
@[simp] theorem discardBlocks_epoch (s : State) : (discardBlocks s).epoch = s.epoch := rfl

/-! ### `raiseFault` -/

@[simp] theorem raiseFault_sReg (f : ContractFault) (s : State) : (raiseFault f s).sReg = s.sReg := rfl
@[simp] theorem raiseFault_sv (f : ContractFault) (s : State) : (raiseFault f s).sv = s.sv := rfl
@[simp] theorem raiseFault_outCap (f : ContractFault) (s : State) : (raiseFault f s).outCap = s.outCap := rfl
@[simp] theorem raiseFault_tierl (f : ContractFault) (s : State) : (raiseFault f s).tierl = s.tierl := rfl
@[simp] theorem raiseFault_phase (f : ContractFault) (s : State) : (raiseFault f s).phase = .fault := rfl
@[simp] theorem raiseFault_rnd (f : ContractFault) (s : State) : (raiseFault f s).rnd = s.rnd := rfl
@[simp] theorem raiseFault_errcode (f : ContractFault) (s : State) : (raiseFault f s).errcode = faultCode f := rfl
@[simp] theorem raiseFault_bytes (f : ContractFault) (s : State) : (raiseFault f s).bytes = 0#32 := rfl
@[simp] theorem raiseFault_w (f : ContractFault) (s : State) : (raiseFault f s).w = Config.freeBlocks s.launch s.draws := rfl
@[simp] theorem raiseFault_orig (f : ContractFault) (s : State) :
    (raiseFault f s).orig = Config.freeBlocks s.launch (s.draws + 1) := rfl
@[simp] theorem raiseFault_ks (f : ContractFault) (s : State) : (raiseFault f s).ks = s.ks := rfl
@[simp] theorem raiseFault_sitesDone (f : ContractFault) (s : State) : (raiseFault f s).sitesDone = s.sitesDone := rfl
@[simp] theorem raiseFault_reply (f : ContractFault) (s : State) : (raiseFault f s).reply = s.reply := rfl
@[simp] theorem raiseFault_turns (f : ContractFault) (s : State) : (raiseFault f s).turns = s.turns := rfl
@[simp] theorem raiseFault_draws (f : ContractFault) (s : State) : (raiseFault f s).draws = s.draws + 2 := rfl
@[simp] theorem raiseFault_launch (f : ContractFault) (s : State) : (raiseFault f s).launch = s.launch := rfl
@[simp] theorem raiseFault_epoch (f : ContractFault) (s : State) : (raiseFault f s).epoch = s.epoch := rfl

/-! ### `resetBlock` -/

@[simp] theorem resetBlock_sReg (s : State) : (resetBlock s).sReg = State.reset.sReg := rfl
@[simp] theorem resetBlock_sv (s : State) : (resetBlock s).sv = State.reset.sv := rfl
@[simp] theorem resetBlock_outCap (s : State) : (resetBlock s).outCap = State.reset.outCap := rfl
@[simp] theorem resetBlock_tierl (s : State) : (resetBlock s).tierl = State.reset.tierl := rfl
@[simp] theorem resetBlock_phase (s : State) : (resetBlock s).phase = State.reset.phase := rfl
@[simp] theorem resetBlock_rnd (s : State) : (resetBlock s).rnd = State.reset.rnd := rfl
@[simp] theorem resetBlock_errcode (s : State) : (resetBlock s).errcode = State.reset.errcode := rfl
@[simp] theorem resetBlock_bytes (s : State) : (resetBlock s).bytes = State.reset.bytes := rfl
@[simp] theorem resetBlock_w (s : State) : (resetBlock s).w = State.reset.w := rfl
@[simp] theorem resetBlock_orig (s : State) : (resetBlock s).orig = State.reset.orig := rfl
@[simp] theorem resetBlock_ks (s : State) : (resetBlock s).ks = (bufferAfterReset s).1 := rfl
@[simp] theorem resetBlock_sitesDone (s : State) : (resetBlock s).sitesDone = State.reset.sitesDone := rfl
@[simp] theorem resetBlock_reply (s : State) : (resetBlock s).reply = s.reply := rfl
@[simp] theorem resetBlock_turns (s : State) : (resetBlock s).turns = s.turns := rfl
@[simp] theorem resetBlock_draws (s : State) : (resetBlock s).draws = s.draws := rfl
@[simp] theorem resetBlock_launch (s : State) : (resetBlock s).launch = s.launch := rfl
@[simp] theorem resetBlock_epoch (s : State) : (resetBlock s).epoch = (bufferAfterReset s).2 := rfl

/-! ### `replicate` -/

@[simp] theorem replicate_sReg (s : State) : (replicate s).sReg = s.sReg := rfl
@[simp] theorem replicate_sv (s : State) : (replicate s).sv = s.sv := rfl
@[simp] theorem replicate_outCap (s : State) : (replicate s).outCap = s.outCap := rfl
@[simp] theorem replicate_tierl (s : State) : (replicate s).tierl = s.tierl := rfl
@[simp] theorem replicate_phase (s : State) : (replicate s).phase = .col := rfl
@[simp] theorem replicate_rnd (s : State) : (replicate s).rnd = 0#4 := rfl
@[simp] theorem replicate_errcode (s : State) : (replicate s).errcode = s.errcode := rfl
@[simp] theorem replicate_bytes (s : State) : (replicate s).bytes = s.bytes := rfl
@[simp] theorem replicate_w (s : State) :
    (replicate s).w = mapRows (blockCount s.tierl) (fun i _ => replicaOf s.tierl s.sReg i.val) s.w := rfl
@[simp] theorem replicate_orig (s : State) :
    (replicate s).orig = mapRows (blockCount s.tierl) (fun i _ => replicaOf s.tierl s.sReg i.val) s.orig := rfl
@[simp] theorem replicate_ks (s : State) : (replicate s).ks = s.ks := rfl
@[simp] theorem replicate_sitesDone (s : State) : (replicate s).sitesDone = Vector.replicate 4 false := rfl
@[simp] theorem replicate_reply (s : State) : (replicate s).reply = s.reply := rfl
@[simp] theorem replicate_turns (s : State) : (replicate s).turns = s.turns := rfl
@[simp] theorem replicate_draws (s : State) : (replicate s).draws = s.draws := rfl
@[simp] theorem replicate_launch (s : State) : (replicate s).launch = s.launch := rfl
@[simp] theorem replicate_epoch (s : State) : (replicate s).epoch = s.epoch := rfl

/-! ### `columnRound` -/

@[simp] theorem columnRound_sReg (s : State) : (columnRound s).sReg = s.sReg := rfl
@[simp] theorem columnRound_sv (s : State) : (columnRound s).sv = s.sv := rfl
@[simp] theorem columnRound_outCap (s : State) : (columnRound s).outCap = s.outCap := rfl
@[simp] theorem columnRound_tierl (s : State) : (columnRound s).tierl = s.tierl := rfl
@[simp] theorem columnRound_phase (s : State) : (columnRound s).phase = .diag := rfl
@[simp] theorem columnRound_rnd (s : State) : (columnRound s).rnd = s.rnd := rfl
@[simp] theorem columnRound_errcode (s : State) : (columnRound s).errcode = s.errcode := rfl
@[simp] theorem columnRound_bytes (s : State) : (columnRound s).bytes = s.bytes := rfl
@[simp] theorem columnRound_w (s : State) :
    (columnRound s).w = mapRows (blockCount s.tierl) (fun _ b => restOfRound 0 s.sitesDone b) s.w := rfl
@[simp] theorem columnRound_orig (s : State) : (columnRound s).orig = s.orig := rfl
@[simp] theorem columnRound_ks (s : State) : (columnRound s).ks = s.ks := rfl
@[simp] theorem columnRound_sitesDone (s : State) : (columnRound s).sitesDone = Vector.replicate 4 false := rfl
@[simp] theorem columnRound_reply (s : State) : (columnRound s).reply = s.reply := rfl
@[simp] theorem columnRound_turns (s : State) : (columnRound s).turns = s.turns := rfl
@[simp] theorem columnRound_draws (s : State) : (columnRound s).draws = s.draws := rfl
@[simp] theorem columnRound_launch (s : State) : (columnRound s).launch = s.launch := rfl
@[simp] theorem columnRound_epoch (s : State) : (columnRound s).epoch = s.epoch := rfl

/-! ### `diagonalRound` -/

@[simp] theorem diagonalRound_sReg (s : State) : (diagonalRound s).sReg = s.sReg := rfl
@[simp] theorem diagonalRound_sv (s : State) : (diagonalRound s).sv = s.sv := rfl
@[simp] theorem diagonalRound_outCap (s : State) : (diagonalRound s).outCap = s.outCap := rfl
@[simp] theorem diagonalRound_tierl (s : State) : (diagonalRound s).tierl = s.tierl := rfl
@[simp] theorem diagonalRound_phase (s : State) :
    (diagonalRound s).phase = if s.rnd + 1 = 10#4 then .final else .col := rfl
@[simp] theorem diagonalRound_rnd (s : State) : (diagonalRound s).rnd = s.rnd + 1 := rfl
@[simp] theorem diagonalRound_errcode (s : State) : (diagonalRound s).errcode = s.errcode := rfl
@[simp] theorem diagonalRound_bytes (s : State) : (diagonalRound s).bytes = s.bytes := rfl
@[simp] theorem diagonalRound_w (s : State) :
    (diagonalRound s).w = mapRows (blockCount s.tierl) (fun _ b => restOfRound 1 s.sitesDone b) s.w := rfl
@[simp] theorem diagonalRound_orig (s : State) : (diagonalRound s).orig = s.orig := rfl
@[simp] theorem diagonalRound_ks (s : State) : (diagonalRound s).ks = s.ks := rfl
@[simp] theorem diagonalRound_sitesDone (s : State) : (diagonalRound s).sitesDone = Vector.replicate 4 false := rfl
@[simp] theorem diagonalRound_reply (s : State) : (diagonalRound s).reply = s.reply := rfl
@[simp] theorem diagonalRound_turns (s : State) : (diagonalRound s).turns = s.turns := rfl
@[simp] theorem diagonalRound_draws (s : State) : (diagonalRound s).draws = s.draws := rfl
@[simp] theorem diagonalRound_launch (s : State) : (diagonalRound s).launch = s.launch := rfl
@[simp] theorem diagonalRound_epoch (s : State) : (diagonalRound s).epoch = s.epoch := rfl

/-! ### `feedForward` -/

@[simp] theorem feedForward_sReg (s : State) : (feedForward s).sReg = s.sReg := rfl
@[simp] theorem feedForward_sv (s : State) : (feedForward s).sv = s.sv := rfl
@[simp] theorem feedForward_outCap (s : State) : (feedForward s).outCap = s.outCap := rfl
@[simp] theorem feedForward_tierl (s : State) : (feedForward s).tierl = s.tierl := rfl
@[simp] theorem feedForward_phase (s : State) : (feedForward s).phase = .ser := rfl
@[simp] theorem feedForward_rnd (s : State) : (feedForward s).rnd = s.rnd := rfl
@[simp] theorem feedForward_errcode (s : State) : (feedForward s).errcode = s.errcode := rfl
@[simp] theorem feedForward_bytes (s : State) : (feedForward s).bytes = s.bytes := rfl
@[simp] theorem feedForward_w (s : State) :
    (feedForward s).w = mapRows (blockCount s.tierl) (fun i b => addBlocks b s.orig[i]) s.w := rfl
@[simp] theorem feedForward_orig (s : State) : (feedForward s).orig = s.orig := rfl
@[simp] theorem feedForward_ks (s : State) : (feedForward s).ks = s.ks := rfl
@[simp] theorem feedForward_sitesDone (s : State) : (feedForward s).sitesDone = s.sitesDone := rfl
@[simp] theorem feedForward_reply (s : State) : (feedForward s).reply = s.reply := rfl
@[simp] theorem feedForward_turns (s : State) : (feedForward s).turns = s.turns := rfl
@[simp] theorem feedForward_draws (s : State) : (feedForward s).draws = s.draws := rfl
@[simp] theorem feedForward_launch (s : State) : (feedForward s).launch = s.launch := rfl
@[simp] theorem feedForward_epoch (s : State) : (feedForward s).epoch = s.epoch := rfl

/-! ### `serialize` -/

@[simp] theorem serialize_sReg (s : State) : (serialize s).sReg = s.sReg := rfl
@[simp] theorem serialize_sv (s : State) : (serialize s).sv = s.sv := rfl
@[simp] theorem serialize_outCap (s : State) : (serialize s).outCap = s.outCap := rfl
@[simp] theorem serialize_tierl (s : State) : (serialize s).tierl = s.tierl := rfl
@[simp] theorem serialize_phase (s : State) : (serialize s).phase = .done := rfl
@[simp] theorem serialize_rnd (s : State) : (serialize s).rnd = s.rnd := rfl
@[simp] theorem serialize_errcode (s : State) : (serialize s).errcode = s.errcode := rfl
@[simp] theorem serialize_bytes (s : State) : (serialize s).bytes = byteCount s.tierl := rfl
@[simp] theorem serialize_w (s : State) : (serialize s).w = Config.freeBlocks s.launch s.draws := rfl
@[simp] theorem serialize_orig (s : State) : (serialize s).orig = Config.freeBlocks s.launch (s.draws + 1) := rfl
@[simp] theorem serialize_ks (s : State) : (serialize s).ks = serializeRows s.w s.ks (blockCount s.tierl) := rfl
@[simp] theorem serialize_sitesDone (s : State) : (serialize s).sitesDone = s.sitesDone := rfl
@[simp] theorem serialize_reply (s : State) : (serialize s).reply = s.reply := rfl
@[simp] theorem serialize_turns (s : State) : (serialize s).turns = s.turns := rfl
@[simp] theorem serialize_draws (s : State) : (serialize s).draws = s.draws + 2 := rfl
@[simp] theorem serialize_launch (s : State) : (serialize s).launch = s.launch := rfl
@[simp] theorem serialize_epoch (s : State) : (serialize s).epoch = s.epoch := rfl

/-! ### Placing the next move -/

@[simp] theorem nextPacket_nil {s : State} (h : s.turns = []) : nextPacket s = (corePacket s, s) := by
  simp [nextPacket, h]

@[simp] theorem nextPacket_core {s : State} {rest : List Turn} (h : s.turns = .core :: rest) :
    nextPacket s = (corePacket s, { s with turns := rest }) := by
  simp [nextPacket, h]

theorem nextPacket_packet {s : State} {p : Packet} {rest : List Turn} (h : s.turns = .packet p :: rest) :
    nextPacket s = (if p = .event 0#1 then none else some p, { s with turns := rest }) := by
  simp [nextPacket, h]

/-- Taking a turn changes nothing but the list of turns. -/
theorem nextPacket_state (s : State) : ∃ rest, (nextPacket s).2 = { s with turns := rest } := by
  unfold nextPacket
  split
  · exact ⟨s.turns, rfl⟩
  · exact ⟨_, rfl⟩
  · exact ⟨_, rfl⟩

end Sys2Proof.Machine
end

