-- ==== Sys2Proof/Laws/Ops.lean ====
section
/-! SUPPORT. What each shared operation can do, said once: the guards of 45_host_access R100 and of the core's own
operations, the outcome of an issue, every effect a move can have, and what a step is. -/

namespace Sys2Proof.Machine

theorem atRest_or_busy_or_fault (s : State) : atRest s ∨ busyFlag s.phase = true ∨ s.phase = .fault := by
  unfold atRest
  cases s.phase <;> simp [busyFlag]

theorem not_busy_of_atRest {s : State} (h : atRest s) : busyFlag s.phase = false := by
  rcases h with h | h <;> simp [h, busyFlag]

theorem not_fault_of_atRest {s : State} (h : atRest s) : s.phase ≠ .fault := by
  rcases h with h | h <;> simp [h]

/-! ### The host's guards -/

theorem hostWrite_atRest {s : State} (h : atRest s) (t : State) : hostWrite s t = .next t := by
  simp [hostWrite, not_busy_of_atRest h, not_fault_of_atRest h]

theorem hostWrite_fault {s : State} (h : s.phase = .fault) (t : State) : hostWrite s t = .next s := by
  simp [hostWrite, h, busyFlag]

theorem hostWrite_busy {s : State} (h : busyFlag s.phase = true) (t : State) :
    hostWrite s t = .refused .hostAccessWhileBusy := by
  simp [hostWrite, h]

/-- Everything a host write can do. -/
theorem hostWrite_next {s t u : State} (h : hostWrite s t = .next u) :
    (s.phase = .fault ∧ u = s) ∨ (atRest s ∧ u = t) := by
  rcases atRest_or_busy_or_fault s with hr | hb | hf
  · rw [hostWrite_atRest hr] at h
    exact .inr ⟨hr, (Host.Outcome.next.inj h).symm⟩
  · rw [hostWrite_busy hb] at h
    cases h
  · rw [hostWrite_fault hf] at h
    exact .inl ⟨hf, (Host.Outcome.next.inj h).symm⟩

theorem hostRead_ok {s : State} (h : busyFlag s.phase = false) (v : Reply) :
    hostRead s (.ok v) = .next { s with reply := v } := by
  simp [hostRead, h]

theorem hostRead_busy {s : State} (h : busyFlag s.phase = true) (r : Except Refusal Reply) :
    hostRead s r = .refused .hostAccessWhileBusy := by
  simp [hostRead, h]

/-- Everything a host read can do. -/
theorem hostRead_next {s u : State} {r : Except Refusal Reply} (h : hostRead s r = .next u) :
    busyFlag s.phase = false ∧ ∃ v, r = .ok v ∧ u = { s with reply := v } := by
  unfold hostRead at h
  split at h
  · cases h
  · rename_i hb
    cases r with
    | ok v => exact ⟨by simpa using hb, v, rfl, (Host.Outcome.next.inj h).symm⟩
    | error e => cases h

/-- Everything an internal operation can do. -/
theorem coreOperation_next {p : Phase} {s t u : State} (h : coreOperation p s t = .next u) :
    s.phase = p ∧ u = t := by
  unfold coreOperation at h
  split at h
  · exact ⟨‹_›, (Host.Outcome.next.inj h).symm⟩
  · cases h

theorem coreOperation_inPhase {p : Phase} {s : State} (h : s.phase = p) (t : State) :
    coreOperation p s t = .next t := by
  simp [coreOperation, h]

/-! ### Issue -/

theorem issue_of_not_legal {c : Word} (h : commandTier c = none) (s : State) :
    issue c s = raiseFault .eCmd { s with bytes := 0#32 } := by
  simp [issue, h]

theorem issue_of_incomplete {c : Word} {t : Tier} (h : commandTier c = some t) {s : State}
    (hs : stateComplete s.sv = false) : issue c s = raiseFault .eState { s with bytes := 0#32 } := by
  simp [issue, h, hs]

theorem issue_of_undersized {c : Word} {t : Tier} (h : commandTier c = some t) {s : State}
    (hs : stateComplete s.sv = true) (hc : s.outCap.ult (byteCount t) = true) :
    issue c s = raiseFault .eBuffer { s with bytes := 0#32 } := by
  simp [issue, h, hs, hc]

theorem issue_accepted {c : Word} {t : Tier} (h : commandTier c = some t) {s : State}
    (hs : stateComplete s.sv = true) (hc : s.outCap.ult (byteCount t) = false) :
    issue c s = { s with bytes := 0#32, tierl := t, phase := .repl } := by
  simp [issue, h, hs, hc]

theorem undersized_iff (s : State) (t : Tier) :
    s.outCap.ult (byteCount t) = true ↔ s.outCap.toNat < blockCount t * 64 := by
  rw [BitVec.ult, byteCount_toNat]
  simp

/-- Everything an issue can do. -/
theorem issue_cases (c : Word) (s : State) :
    (∃ f, issue c s = raiseFault f { s with bytes := 0#32 }) ∨
    (∃ t, commandTier c = some t ∧ (∀ j : Fin 16, s.sv[j] = true) ∧ blockCount t * 64 ≤ s.outCap.toNat ∧
      issue c s = { s with bytes := 0#32, tierl := t, phase := .repl }) := by
  cases hc : commandTier c with
  | none => exact .inl ⟨_, issue_of_not_legal hc s⟩
  | some t =>
    cases hs : stateComplete s.sv with
    | false => exact .inl ⟨_, issue_of_incomplete hc hs⟩
    | true =>
      cases hu : s.outCap.ult (byteCount t) with
      | true => exact .inl ⟨_, issue_of_undersized hc hs hu⟩
      | false =>
        refine .inr ⟨t, rfl, (stateComplete_iff _).1 hs, ?_, issue_accepted hc hs hu⟩
        have := undersized_iff s t
        simp only [hu, Bool.false_eq_true, false_iff] at this
        omega

/-! ### Every effect a move can have -/

/-- The effects of the operations: which state an operation can leave, and from where. -/
inductive Effect (s : State) : Instr → State → Prop
  | ignored (i : Instr) : s.phase = .fault → Effect s i s
  | issued (i : Instr) (c : Word) :
      (i = .genN ∨ i = .genM ∨ i = .genW ∨ i = .wrCmd c) → atRest s → Effect s i (issue c s)
  | wroteWord (j : Nat) (h : j < 16) (v : Word) : atRest s → Effect s (.wrS j v) (writeStateWord s ⟨j, h⟩ v)
  | wroteCap (v : Word) : atRest s → Effect s (.wrCap v) { s with outCap := v }
  | replied (i : Instr) (v : Reply) :
      (i = .rdStatus ∨ i = .rdBytes ∨ (∃ j, i = .rdS j) ∨ i = .rdCap ∨ (∃ off, i = .rdKs off)) →
      Effect s i { s with reply := v }
  | replicated : s.phase = .repl → Effect s .repl (replicate s)
  | columned : s.phase = .col → Effect s .colround (columnRound s)
  | diagonaled : s.phase = .diag → Effect s .diaground (diagonalRound s)
  | fed : s.phase = .final → Effect s .finalAdd (feedForward s)
  | serialized : s.phase = .ser → Effect s .ser (serialize s)
  | site (h q : Nat) (hh : h < 2) (hq : q < 4) : s.phase = phaseOfHalf h → s.sitesDone[q] = false →
      Effect s (.qr h q)
        { s with
          w := mapRows (blockCount s.tierl) (fun _ b => quarterRoundAt h q b) s.w
          sitesDone := s.sitesDone.set q true }
  | reset : Effect s .reset (resetBlock s)

theorem effect_of_hostWrite {s t u : State} {i : Instr} (h : hostWrite s t = .next u)
    (ht : atRest s → Effect s i t) : Effect s i u := by
  rcases hostWrite_next h with ⟨hf, rfl⟩ | ⟨hr, rfl⟩
  · exact .ignored i hf
  · exact ht hr

/-- Where an operation answers a next state, that state is one of its effects. -/
theorem exec_effect {i : Instr} {s t : State} (h : exec i s = .next t) : Effect s i t := by
  cases i with
  | genN => exact effect_of_hostWrite h fun hr => .issued _ _ (.inl rfl) hr
  | genM => exact effect_of_hostWrite h fun hr => .issued _ _ (.inr (.inl rfl)) hr
  | genW => exact effect_of_hostWrite h fun hr => .issued _ _ (.inr (.inr (.inl rfl))) hr
  | wrS j v =>
    simp only [exec, execWrS] at h
    split at h
    · exact effect_of_hostWrite h fun hr => .wroteWord j ‹_› v hr
    · cases h
  | wrCap v => exact effect_of_hostWrite h fun hr => .wroteCap v hr
  | wrCmd c => exact effect_of_hostWrite h fun hr => .issued _ c (.inr (.inr (.inr rfl))) hr
  | rdStatus =>
    simp only [exec, execRdStatus, Host.Outcome.next.injEq] at h
    subst h
    exact .replied _ _ (.inl rfl)
  | rdBytes =>
    simp only [exec, execRdBytes] at h
    obtain ⟨-, v, -, rfl⟩ := hostRead_next h
    exact .replied _ _ (.inr (.inl rfl))
  | rdS j =>
    simp only [exec, execRdS] at h
    split at h
    · obtain ⟨-, v, -, rfl⟩ := hostRead_next h
      exact .replied _ _ (.inr (.inr (.inl ⟨j, rfl⟩)))
    · cases h
  | rdCap =>
    simp only [exec, execRdCap] at h
    obtain ⟨-, v, -, rfl⟩ := hostRead_next h
    exact .replied _ _ (.inr (.inr (.inr (.inl rfl))))
  | rdKs off =>
    simp only [exec, execRdKs] at h
    obtain ⟨-, v, -, rfl⟩ := hostRead_next h
    exact .replied _ _ (.inr (.inr (.inr (.inr ⟨off, rfl⟩))))
  | repl =>
    obtain ⟨hp, rfl⟩ := coreOperation_next h
    exact .replicated hp
  | colround =>
    obtain ⟨hp, rfl⟩ := coreOperation_next h
    exact .columned hp
  | diaground =>
    obtain ⟨hp, rfl⟩ := coreOperation_next h
    exact .diagonaled hp
  | finalAdd =>
    obtain ⟨hp, rfl⟩ := coreOperation_next h
    exact .fed hp
  | ser =>
    obtain ⟨hp, rfl⟩ := coreOperation_next h
    exact .serialized hp
  | qr h' q =>
    simp only [exec, execQr] at h
    split at h
    · rename_i hq
      split at h
      · cases h
      · rename_i hd
        obtain ⟨hp, rfl⟩ := coreOperation_next h
        refine .site h' q hq.1 hq.2 hp ?_
        simpa [hp] using hd
    · cases h
  | reset =>
    simp only [exec, execReset, Host.Outcome.next.injEq] at h
    subst h
    exact .reset

/-! ### What a step is -/

/-- Everything a step can do: nobody moves, or the decoded operation runs. -/
theorem step_next {s t : State} (h : step s = .next t) :
    ((nextPacket s).1 = none ∧ t = (nextPacket s).2) ∨
    (∃ p i, (nextPacket s).1 = some p ∧ decode p = .ok i ∧ exec i (nextPacket s).2 = .next t) := by
  unfold step at h
  split at h
  · rename_i t' hn
    exact .inl ⟨by rw [hn], by rw [hn]; exact (Host.Outcome.next.inj h).symm⟩
  · rename_i p t' hn
    cases hd : decode p with
    | ok i =>
      rw [hd] at h
      exact .inr ⟨p, i, by rw [hn], hd, by rw [hn]; exact h⟩
    | error e =>
      rw [hd] at h
      cases h

/-- With no turn listed, the core of a busy block performs the operation its PHASE names. -/
theorem step_core {s : State} (ht : s.turns = []) (i : Instr) (hb : busyFlag s.phase = true)
    (hd : decode (.uop (phaseCode s.phase)) = .ok i) : step s = exec i s := by
  simp [step, nextPacket_nil ht, corePacket, hb, hd]

/-- With no turn listed and no command running, nothing moves. -/
theorem step_rest {s : State} (ht : s.turns = []) (hb : busyFlag s.phase = false) : step s = .next s := by
  simp [step, nextPacket_nil ht, corePacket, hb]

end Sys2Proof.Machine
end

