-- ==== Sys2Proof/Laws/PerInstr.lean ====
section
/-! SUPPORT. Per instruction: an operation that a packet decodes to is well-formed, so every operation a step runs meets its
operand bounds (45_host_access R101, R106; 30_encoding R51). -/

namespace Sys2Proof

theorem hostIndex_lt (code : BitVec 8) : hostIndex code < 16 := by
  unfold hostIndex
  revert code
  decide

theorem decodeSite_wellFormed : ∀ site : BitVec 3, (decodeSite site).wellFormed = true := by decide

/-- What a HOST code decodes to has its register index in bounds. -/
theorem decodeHost_wellFormed {code : BitVec 8} {data : Word} {i : Instr} (h : decodeHost code data = .ok i) :
    i.wellFormed = true := by
  unfold decodeHost at h
  have hj := hostIndex_lt code
  repeat' split at h
  all_goals first
    | cases h; done
    | (obtain rfl := Except.ok.inj h; simp [Instr.wellFormed, hj])

theorem decodeUop_wellFormed {code : BitVec 3} {i : Instr} (h : decodeUop code = .ok i) : i.wellFormed = true := by
  unfold decodeUop at h
  repeat' split at h
  all_goals first
    | cases h; done
    | (obtain rfl := Except.ok.inj h; rfl)

/-- Every operation a packet decodes to is well-formed. -/
theorem decode_wellFormed {p : Packet} {i : Instr} (h : decode p = .ok i) : i.wellFormed = true := by
  cases p with
  | cmd c =>
    obtain rfl := Except.ok.inj h
    unfold decodeCmd
    split <;> rfl
  | host code data => exact decodeHost_wellFormed h
  | ks off => obtain rfl := Except.ok.inj h; rfl
  | uop code => exact decodeUop_wellFormed h
  | qrsel site =>
    obtain rfl := Except.ok.inj h
    exact decodeSite_wellFormed site
  | event b =>
    simp only [decode] at h
    split at h
    · obtain rfl := Except.ok.inj h; rfl
    · cases h
  | bus write offset width data =>
    simp only [decode, decodeBus] at h
    split at h
    · cases h
    · split at h
      · cases h
      · exact decodeHost_wellFormed h

end Sys2Proof

namespace Sys2Proof.Laws.Decoded

/-- No packet decodes to the operation unless its operands are in their bounds. -/
def Statement (i : Instr) : Prop := ∀ p, decode p = .ok i → i.wellFormed = true

theorem genN : Statement .genN := fun _ h => decode_wellFormed h
theorem genM : Statement .genM := fun _ h => decode_wellFormed h
theorem genW : Statement .genW := fun _ h => decode_wellFormed h
theorem wrS (j : Nat) (v : Word) : Statement (.wrS j v) := fun _ h => decode_wellFormed h
theorem wrCap (v : Word) : Statement (.wrCap v) := fun _ h => decode_wellFormed h
theorem wrCmd (c : Word) : Statement (.wrCmd c) := fun _ h => decode_wellFormed h
theorem rdStatus : Statement .rdStatus := fun _ h => decode_wellFormed h
theorem rdBytes : Statement .rdBytes := fun _ h => decode_wellFormed h
theorem rdS (j : Nat) : Statement (.rdS j) := fun _ h => decode_wellFormed h
theorem rdCap : Statement .rdCap := fun _ h => decode_wellFormed h
theorem rdKs (off : Word) : Statement (.rdKs off) := fun _ h => decode_wellFormed h
theorem repl : Statement .repl := fun _ h => decode_wellFormed h
theorem colround : Statement .colround := fun _ h => decode_wellFormed h
theorem diaground : Statement .diaground := fun _ h => decode_wellFormed h
theorem finalAdd : Statement .finalAdd := fun _ h => decode_wellFormed h
theorem ser : Statement .ser := fun _ h => decode_wellFormed h
theorem qr (h q : Nat) : Statement (.qr h q) := fun _ hd => decode_wellFormed hd
theorem reset : Statement .reset := fun _ h => decode_wellFormed h

end Sys2Proof.Laws.Decoded
end

