-- ==== Sys2Proof/Laws/Runs.lean ====
section
/-! SUPPORT. Runs of the machine, one step at a time. -/

namespace Sys2Proof.Machine

/-- A run of `n + 1` steps is a step and a run of `n`. -/
theorem run_succ {s t : State} (n : Nat) (h : step s = .next t) :
    Host.Core.run Sys2Proof.core (n + 1) s = Host.Core.run Sys2Proof.core n t := by
  have general : ∀ (M : Host.Core) (a b : M.State), M.step a = .next b → M.run (n + 1) a = M.run n b := by
    intro M a b hab
    simp [Host.Core.run, hab]
  exact general Sys2Proof.core s t h

/-- A core turn on the list is the step the core takes with that turn taken off. -/
theorem step_coreTurn {s : State} {rest : List Turn} (h : s.turns = .core :: rest) (i : Instr) (hb : busyFlag s.phase = true)
    (hd : decode (.uop (phaseCode s.phase)) = .ok i) : step s = exec i { s with turns := rest } := by
  simp [step, nextPacket_core h, corePacket, hb, hd]

/-- A listed RD.STATUS leaves everything as it is but `reply` and the turn it takes (45_host_access R104). -/
theorem step_pollTurn {s : State} {rest : List Turn} {d : Word} (h : s.turns = .packet (.host 0x48#8 d) :: rest) :
    step s = .next { s with turns := rest, reply := .word (statusWord s) } := by
  rw [step, nextPacket_packet h]
  simp [decode, decodeHost, exec, execRdStatus, statusWord]

end Sys2Proof.Machine
end

