-- ==== Sys2Proof/Tests/Slice0.lean ====
section
/-! SUPPORT. Checks of the model against the spec's own words and numbers (30_encoding.md, 95_test_vectors.md), and, for
every statement that has hypotheses, a concrete state and operands that meet them. -/

namespace Sys2Proof.Tests

open Sys2Proof Sys2Proof.Machine

/-! ### The states the checks run on -/

/-- "The all-zero-key state" of 95_test_vectors with its counter word `c`. -/
def zState (c : Word) : Block :=
  #v[0x61707865#32, 0x3320646e#32, 0x79622d32#32, 0x6b206574#32, 0, 0, 0, 0, 0, 0, 0, 0, c, 0, 0, 0]

/-- The index block `w[j] = j` of V2, V3 and V13. -/
def indexBlock : Block := #v[0, 1, 2, 3, 4, 5, 6, 7, 8, 9, 10, 11, 12, 13, 14, 15]

/-- After a launch (R129): a whole state written, the capacity set, no move listed. -/
def ready (cap : Word) (s : Block) : State :=
  { State.reset with sReg := s, sv := Vector.replicate 16 true, outCap := cap }

/-- A launched block whose sequencer stands in PHASE `p`. -/
def inPhase (p : Phase) : State := { ready 1024 (zState 0) with phase := p }

/-- The next state of an outcome. -/
def after : Host.Outcome State Fault Refusal → Option State
  | .next t => some t
  | .fault _ => none
  | .refused _ => none

/-- Why an outcome is a refusal. -/
def refusal : Host.Outcome State Fault Refusal → Option Refusal
  | .next _ => none
  | .fault _ => none
  | .refused r => some r

/-- The operations of a list, one after another. -/
def afterAll : List Instr → State → Option State
  | [], s => some s
  | i :: rest, s => (after (exec i s)).bind (afterAll rest)

/-! ### WellFormed refuses each ill-formed operand -/

theorem test_wrS_index_16_ill_formed : (Instr.wrS 16 0).wellFormed = false := by decide
theorem test_rdS_index_16_ill_formed : (Instr.rdS 16).wellFormed = false := by decide
theorem test_qr_half_2_ill_formed : (Instr.qr 2 0).wellFormed = false := by decide
theorem test_qr_quadruple_4_ill_formed : (Instr.qr 0 4).wellFormed = false := by decide
theorem test_bounds_are_tight :
    (Instr.wrS 15 0).wellFormed = true ∧ (Instr.rdS 15).wellFormed = true ∧ (Instr.qr 1 3).wellFormed = true := by decide

/-! ### Words written out from the spec's encodings -/

-- R46: ZERO1 16 bits, OPC 8 bits, ZERO0 6 bits, TIER 2 bits.
theorem test_decode_genN : decode (.cmd (0#16 ++ 0x01#8 ++ 0#6 ++ 0#2)) = .ok .genN := by decide
theorem test_decode_genM : decode (.cmd (0#16 ++ 0x01#8 ++ 0#6 ++ 1#2)) = .ok .genM := by decide
theorem test_decode_genW : decode (.cmd (0#16 ++ 0x01#8 ++ 0#6 ++ 2#2)) = .ok .genW := by decide
theorem test_decode_tier_3 : decode (.cmd (0#16 ++ 0x01#8 ++ 0#6 ++ 3#2)) = .ok (.wrCmd 0x103) := by decide
-- R48: direction, offset; j = code[5:2].
theorem test_decode_wrS : decode (.host (1#1 ++ 0#1 ++ 0b0011#4 ++ 0#2) 0xdeadbeef) = .ok (.wrS 3 0xdeadbeef) := by decide
theorem test_decode_rdS : decode (.host (0#1 ++ 0#1 ++ 0b1100#4 ++ 0#2) 0) = .ok (.rdS 12) := by decide
theorem test_decode_wrCap : decode (.host (1#1 ++ 0x40#7) 0x400) = .ok (.wrCap 0x400) := by decide
theorem test_decode_rdCap : decode (.host (0#1 ++ 0x40#7) 0) = .ok .rdCap := by decide
theorem test_decode_wrCmd : decode (.host (1#1 ++ 0x44#7) 0x100) = .ok (.wrCmd 0x100) := by decide
theorem test_decode_rdStatus : decode (.host (0#1 ++ 0x48#7) 0) = .ok .rdStatus := by decide
theorem test_decode_rdBytes : decode (.host (0#1 ++ 0x4C#7) 0) = .ok .rdBytes := by decide
theorem test_decode_rdKs : decode (.ks 0xffffffff) = .ok (.rdKs 0xffffffff) := by decide
theorem test_decode_reset : decode (.event 1) = .ok .reset := by decide
-- R50.
theorem test_decode_repl : decode (.uop 0b001) = .ok .repl := by decide
theorem test_decode_colround : decode (.uop 0b010) = .ok .colround := by decide
theorem test_decode_diaground : decode (.uop 0b011) = .ok .diaground := by decide
theorem test_decode_final : decode (.uop 0b100) = .ok .finalAdd := by decide
theorem test_decode_ser : decode (.uop 0b101) = .ok .ser := by decide
-- R51: h, q.
theorem test_decode_qr : decode (.qrsel (1#1 ++ 0b01#2)) = .ok (.qr 1 1) := by decide
-- R56, R109: what is no operation, by name.
theorem test_decode_refused :
    decode (.host 0xC8 0) = .error .writeOfReadOnly ∧ decode (.host 0xCC 0) = .error .writeOfReadOnly ∧
    decode (.host 0x44 0) = .error .readOfWriteOnly ∧ decode (.host 0x50 0) = .error .reservedOffset ∧
    decode (.host 0x02 0) = .error .offsetNotAligned ∧ decode (.uop 6) = .error .restingPosition ∧
    decode (.bus false 0x80 32 0) = .error .offsetAboveMap ∧ decode (.bus false 0 16 0) = .error .wrongWidth := by decide

/-! ### The pseudo-instructions of R58 -/

theorem test_expansions :
    (expandLdstate (zState 7)).length = 16 ∧ (expandLdstate (zState 7))[12]? = some (.wrS 12 7) ∧
    expandGenerate .medium 1 = [.genM, .rdStatus, .rdStatus, .rdBytes] := by decide
-- P1 line 21.
theorem test_rdKsw_joins_little_endian : joinBytes 0x76 0xb8 0xe0 0xad = 0xade0b876 := by decide

/-! ### One step of the machine on a word of the opcode table -/

theorem test_step_runs_wrCap :
    (after (step (State.reset.withFetchWord 40 (0xC0 + 256 * 128)))).map State.outCap = some 128 := by decide +kernel
theorem test_step_runs_repl :
    (after (step ((ready 128 (zState 0)).withFetchWord 3 1))).map State.phase = some .col := by decide +kernel
theorem test_step_runs_qr :
    (after (step ((ready 128 (zState 0)).withFetchWord 3 0b110))).map (·.sitesDone.toList)
      = some [false, false, true, false] := by decide +kernel
theorem test_table_words :
    decodeTableWord 32 0x102 = some .genW ∧ decodeTableWord 8 0x3C = some (.rdS 15) ∧
    decodeTableWord 3 0b101 = some .ser ∧ decodeTableWord 3 0b111 = some (.qr 1 3) ∧
    decodeTableWord 1 1 = some .reset := by decide +kernel

/-! ### Issue and faults: the rows of V12 -/

/-- PHASE and STATUS after a command word, from IDLE, with a whole state. -/
def issued (c cap : Word) : Option (Phase × Word) :=
  (after (exec (.wrCmd c) (ready cap (zState 0)))).map fun t => (t.phase, statusWord t)

theorem test_genN_boundary : issued 0x100 128 = some (.repl, 0x01) ∧ issued 0x100 127 = some (.fault, 0x34) := by
  decide +kernel
theorem test_genM_boundary : issued 0x101 256 = some (.repl, 0x01) ∧ issued 0x101 255 = some (.fault, 0x34) := by
  decide +kernel
theorem test_genW_boundary : issued 0x102 1024 = some (.repl, 0x01) ∧ issued 0x102 1023 = some (.fault, 0x34) := by
  decide +kernel
theorem test_wrCmd_illegal_words :
    issued 0x103 1024 = some (.fault, 0x14) ∧ issued 0 1024 = some (.fault, 0x14) ∧ issued 1 1024 = some (.fault, 0x14) ∧
    issued 0x10100 1024 = some (.fault, 0x14) ∧ issued 0x104 1024 = some (.fault, 0x14) ∧
    issued 0x200 1024 = some (.fault, 0x14) := by decide +kernel
theorem test_wrCmd_order_of_checks :
    (after (exec .genN State.reset)).map statusWord = some 0x24 ∧
    (after (exec (.wrCmd 0x103) State.reset)).map statusWord = some 0x14 ∧
    (after (exec .genN { ready 128 (zState 0) with sv := (Vector.replicate 16 true).set 15 false })).map statusWord
      = some 0x24 := by decide +kernel

/-! ### Host accesses: the rows of V14 -/

theorem test_rdStatus_after_reset : (after (exec .rdStatus State.reset)).map State.reply = some (.word 0) := by
  decide +kernel
theorem test_rdBytes_after_reset : (after (exec .rdBytes State.reset)).map State.reply = some (.word 0) := by
  decide +kernel
theorem test_rdS_unwritten : refusal (exec (.rdS 3) State.reset) = some .unwrittenStateWord := by decide +kernel
theorem test_wrS_then_rdS :
    (afterAll [.wrS 3 0xdeadbeef, .rdS 3] State.reset).map State.reply = some (.word 0xdeadbeef) := by decide +kernel
theorem test_wrS_sets_its_valid_bit :
    (after (exec (.wrS 3 0xdeadbeef) State.reset)).map (fun t => t.sv.toList.findIdx id) = some 3 := by decide +kernel
theorem test_wrCap_then_rdCap :
    (afterAll [.wrCap 1024, .rdCap] State.reset).map State.reply = some (.word 1024) := by decide +kernel
theorem test_rdKs_at_capacity_refused :
    refusal (exec (.rdKs 128) (ready 128 (zState 0))) = some .keystreamOffsetOutOfRange := by decide +kernel
theorem test_rdKs_reads_the_byte :
    (after (exec (.rdKs 127) { ready 128 (zState 0) with ks := [(0, 0x76), (127, 0x6f)] })).map State.reply
      = some (.byte 0x6f) := by decide +kernel
theorem test_reset_clears_fault :
    (after (exec .reset { inPhase .fault with errcode := 3 })).map (fun t => (statusWord t, t.outCap, t.sv.toList.any id))
      = some (0, 0, false) := by decide +kernel

-- R126: while BUSY nothing of the buffer stays; at rest all of it does.
theorem test_reset_buffer :
    (after (exec .reset { inPhase .repl with ks := [(0, 1), (500, 2)] })).map (fun t => (t.ks, t.epoch)) = some ([], 1) ∧
    (after (exec .reset { inPhase .done with ks := [(0, 1), (500, 2)] })).map (fun t => (t.ks, t.epoch))
      = some ([(0, 1), (500, 2)], 0) := by decide +kernel

/-! ### The replicator: V9 -/

/-- Word `j` of row `i` of W after REPL. -/
def replicated (t : Tier) (c : Word) (i j : Fin 16) : Option Word :=
  (after (exec .repl { inPhase .repl with tierl := t, sReg := zState c })).map fun u => u.w[i][j]

theorem test_repl_counter_wraps :
    replicated .narrow 0xffffffff 1 12 = some 0 ∧ replicated .narrow 0xffffffff 1 13 = some 0 ∧
    replicated .medium 0xfffffffd 2 12 = some 0xffffffff := by decide +kernel
theorem test_repl_last_row :
    replicated .wide 0x80000000 15 12 = some 0x8000000f ∧ replicated .wide 0xfffffff8 15 12 = some 7 ∧
    replicated .wide 0 15 3 = some 0x6b206574 := by decide +kernel

/-! ### The round engine: V2, V3 -/

theorem test_rotl : rotl 0x12345678 16 = 0x56781234 ∧ rotl 0x12345678 12 = 0x45678123 ∧
    rotl 0x12345678 8 = 0x34567812 ∧ rotl 0x12345678 7 = 0x1a2b3c09 ∧ rotl 0x80000001 7 = 0xc0 := by decide

set_option maxRecDepth 100000 in
theorem test_qr_v2a :
    (quarterRoundAt 0 0 ((((zState 0).set 0 0x11111111).set 4 0x01020304).set 8 0x9b8d6f43 |>.set 12 0x01234567)).toList
      = [0xea2a92f4, 0x3320646e, 0x79622d32, 0x6b206574, 0xcb1cf8ce, 0, 0, 0, 0x4581472e, 0, 0, 0, 0x5881c4bb, 0, 0, 0] := by
  decide +kernel

set_option maxRecDepth 100000 in
theorem test_qr_in_place :
    (quarterRoundAt 1 1 indexBlock).toList
      = [0x00000000, 0xb000d007, 0x00000002, 0x00000003, 0x00000004, 0x00000005, 0xedebdddd, 0x00000007,
        0x00000008, 0x00000009, 0x0000000a, 0x0bdb07bb, 0x0bd007b0, 0x0000000d, 0x0000000e, 0x0000000f] := by
  decide +kernel

set_option maxRecDepth 100000 in
theorem test_colround :
    (colround1 indexBlock).toList
      = [0x8000c004, 0xb000c006, 0x6000c008, 0x5000c00a, 0x64624444, 0xe5e35cdd, 0x63643533, 0xe2e52daa,
        0x08c80488, 0x0bcb06b9, 0x06c6086a, 0x05c50a5b, 0x08c00480, 0x0bc006b0, 0x06c00860, 0x05c00a50] := by
  decide +kernel

set_option maxRecDepth 100000 in
theorem test_diaground :
    (diaground1 indexBlock).toList
      = [0xa000f005, 0xb000d007, 0x4000f009, 0x9000d007, 0xecebcccc, 0x7d7ad555, 0xedebdddd, 0x7a7ca422,
        0x04f40948, 0x09d90799, 0x0afa05aa, 0x0bdb07bb, 0x0bd007b0, 0x04f00940, 0x09d00790, 0x0af005a0] := by
  decide +kernel

set_option maxRecDepth 100000 in
theorem test_diaground_row_form :
    diagroundRows (packRows [indexBlock])
      = { a := [0xa000f005, 0xb000d007, 0x4000f009, 0x9000d007], b := [0xecebcccc, 0x7d7ad555, 0xedebdddd, 0x7a7ca422],
          c := [0x04f40948, 0x09d90799, 0x0afa05aa, 0x0bdb07bb], d := [0x0bd007b0, 0x04f00940, 0x09d00790, 0x0af005a0] } := by
  decide +kernel

theorem test_lane_rotation :
    laneRotate 1 [4, 5, 6, 7] = [5, 6, 7, 4] ∧ laneRotate 2 [8, 9, 10, 11] = [10, 11, 8, 9] ∧
    laneRotate 3 [12, 13, 14, 15] = [15, 12, 13, 14] := by decide

theorem test_diaground_counts :
    (after (exec .diaground { inPhase .diag with rnd := 8 })).map (fun t => (t.rnd, t.phase)) = some (9, .col) ∧
    (after (exec .diaground { inPhase .diag with rnd := 9 })).map (fun t => (t.rnd, t.phase)) = some (10, .final) := by
  decide +kernel

theorem test_colround_leaves_other_rows :
    (after (exec .colround { inPhase .col with w := Vector.replicate 16 indexBlock })).map (fun t => (t.w[1][0], t.w[2][0]))
      = some (0x8000c004, 0) := by decide +kernel

/-! ### The reference function: V1, V7 -/

set_option maxRecDepth 100000 in
theorem test_block_v1 :
    (blockFunction (zState 0)).toList
      = [0xade0b876, 0x903df1a0, 0xe56a5d40, 0x28bd8653, 0xb819d2bd, 0x1aed8da0, 0xccef36a8, 0xc70d778b,
        0x7c5941da, 0x8d485751, 0x3fe02477, 0x374ad8b8, 0xf4b8436a, 0x1ca11815, 0x69b687c3, 0x8665eeb2] := by
  decide +kernel

set_option maxRecDepth 100000 in
theorem test_keystream_v7 :
    (blockFunction (advanceCounter (zState 0xffffffff) 0))[0] = 0x09cde4ac ∧
    (blockFunction (advanceCounter (zState 0xffffffff) 1))[0] = 0xade0b876 := by decide +kernel

-- V4, block 0.
set_option maxRecDepth 100000 in
theorem test_block_v4 :
    (blockFunction #v[0x61707865, 0x3320646e, 0x79622d32, 0x6b206574, 0x03020100, 0x07060504, 0x0b0a0908, 0x0f0e0d0c,
        0x13121110, 0x17161514, 0x1b1a1918, 0x1f1e1d1c, 0x00000001, 0x09000000, 0x4a000000, 0x00000000]).toList
      = [0xe4e7f110, 0x15593bd1, 0x1fdd0f50, 0xc47120a3, 0xc7f4d1c7, 0x0368c033, 0x9aaa2204, 0x4e6cd4c3,
        0x466482d2, 0x09aa9f07, 0x05d7c214, 0xa2028bd9, 0xd19c12b5, 0xb94e16de, 0xe883d0cb, 0x4e3c50a2] := by
  decide +kernel

/-! ### Feed-forward and serializing: V10, V11 -/

theorem test_final_adds :
    (after (exec .finalAdd { inPhase .final with
      w := (Vector.replicate 16 (zState 0xffffffff)), orig := (Vector.replicate 16 (zState 1)) })).map
        (fun t => (t.w[1][12], t.w[0][1], t.w[2][12])) = some (0, 0x6640c8dc, 0xffffffff) := by decide +kernel

/-- The bytes at four offsets after SER of a file with one word set. -/
def serialized (t : Tier) (i j : Fin 16) (v : Word) (off : Nat) : Option (List (Option Byte)) :=
  let file : BlockFile := (Vector.replicate 16 (Vector.replicate 16 0)).set i ((Vector.replicate 16 0).set j v)
  (after (exec .ser { inPhase .ser with tierl := t, w := file })).map fun u =>
    [u.ks.read off, u.ks.read (off + 1), u.ks.read (off + 2), u.ks.read (off + 3)]

set_option maxRecDepth 100000 in
theorem test_ser_places_words :
    serialized .narrow 1 12 0x281fed31 112 = some [some 0x31, some 0xed, some 0x1f, some 0x28] ∧
    serialized .medium 3 5 0x01020304 212 = some [some 4, some 3, some 2, some 1] := by decide +kernel

set_option maxRecDepth 100000 in
theorem test_ser_frame :
    serialized .narrow 2 0 0xffffffff 128 = some [none, none, none, none] ∧
    (after (exec .ser (inPhase .ser))).map (fun t => (t.bytes, t.phase, statusWord t)) = some (128, .done, 2) := by
  decide +kernel

/-! ### Hypotheses that can be met: one state and operands for every statement that has some -/

theorem meets_EncodeThenDecode : (Instr.wrS 15 0xffffffff).wellFormed = true ∧ (Instr.qr 1 3).wellFormed = true := by decide
theorem meets_AcceptedHostCodes : decode (.host 0xBC 0xffffffff) = .ok (.wrS 15 0xffffffff) := by decide

/-- A state whose next move is a register access of any offset and width. -/
def busAccess (write : Bool) (off width data : Nat) : State :=
  { State.reset with turns := [.packet (.bus write off width data)] }

theorem meets_UndefinedAccesses :
    (∀ d ∈ [(false, 0, 31), (true, 0, 33), (false, 0x80, 32), (false, 0x02, 32), (true, 0x50, 32), (true, 0x48, 32),
        (true, 0x4C, 32), (false, 0x44, 32)],
      (d.2.2 ≠ 32 ∨ 0x80 ≤ d.2.1 ∨ d.2.1 % 4 ≠ 0 ∨ 0x50 ≤ d.2.1 ∨ (d.1 = true ∧ (d.2.1 = 0x48 ∨ d.2.1 = 0x4C)) ∨
        (d.1 = false ∧ d.2.1 = 0x44))) ∧
    (∀ write off width, (busAccess write off width 0).turns = .packet (.bus write off width 0) :: []) ∧
    0x7F < 0x80 ∧
    (ready 128 (zState 0)).outCap.toNat ≤ (128#32).toNat :=
  ⟨by decide, fun _ _ _ => rfl, by decide, by decide⟩

theorem meets_UndefinedHostAccesses :
    (∀ code ∈ [0x01#8, 0x50#8, 0x7C#8, 0xD0#8, 0xFF#8, 0xC8#8, 0xCC#8, 0x44#8],
      (code &&& 0x03#8 ≠ 0#8 ∨ 0x50 ≤ (code &&& 0x7F#8).toNat ∨ code = 0xC8#8 ∨ code = 0xCC#8 ∨ code = 0x44#8)) ∧
    ({ State.reset with turns := [.packet (.host 0xC8 5)] } : State).turns = .packet (.host 0xC8 5) :: [] :=
  ⟨by decide, rfl⟩

theorem test_step_refuses_write_of_status :
    refusal (step { State.reset with turns := [.packet (.host 0xC8 5)] }) = some (.undefinedAccess .writeOfReadOnly) := by
  decide +kernel

theorem meets_SiteTable : (1 : Nat) < 2 ∧ (3 : Nat) < 4 := by decide

theorem meets_StepRuns :
    ({ State.reset with turns := [.packet (.event 1)] } : State).turns = .packet (.event 1) :: [] ∧
    decode (.event 1) = .ok .reset ∧
    ({ inPhase .ser with turns := [.core] } : State).turns = .core :: [] ∧
    busyFlag (inPhase .ser).phase = true ∧ decode (.uop (phaseCode (inPhase .ser).phase)) = .ok .ser ∧
    (inPhase .ser).turns = [] := by decide

theorem meets_PhaseNames : ∀ p ∈ [Phase.idle, .repl, .col, .diag, .final, .ser, .done, .fault],
    (inPhase p).turns = [] ∧ (inPhase p).phase = p := by decide

theorem meets_atRest : atRest (inPhase .idle) ∧ atRest (inPhase .done) := ⟨.inl rfl, .inr rfl⟩

theorem ready_valid (cap : Word) (s : Block) (j : Fin 16) : (ready cap s).sv[j] = true := by simp [ready]

theorem meets_AcceptedCommand :
    commandTier 0x102 = some .wide ∧ commandReady .narrow (ready 128 (zState 0)) ∧
    commandReady .medium (ready 256 (zState 0)) ∧ commandReady .wide (ready 1024 (zState 0)) :=
  ⟨by decide, ⟨.inl rfl, ready_valid _ _, by decide⟩, ⟨.inl rfl, ready_valid _ _, by decide⟩,
    ⟨.inl rfl, ready_valid _ _, by decide⟩⟩

theorem meets_MnemonicsAreCommandWrites : decode (.cmd 0x103) = .ok (.wrCmd 0x103) ∧ decode (.cmd 0x101) = .ok .genM := by
  decide

theorem meets_CommandOutcome :
    commandTier 0x103 = none ∧ commandTier 0x101 = some .medium ∧
    (atRest State.reset ∧ State.reset.sv[(15 : Fin 16)] = false) ∧
    (atRest (ready 255 (zState 0)) ∧ (∀ j : Fin 16, (ready 255 (zState 0)).sv[j] = true) ∧
      (ready 255 (zState 0)).outCap.toNat < blockCount .medium * 64) ∧
    (atRest (ready 256 (zState 0)) ∧ (∀ j : Fin 16, (ready 256 (zState 0)).sv[j] = true) ∧
      blockCount .medium * 64 ≤ (ready 256 (zState 0)).outCap.toNat) :=
  ⟨by decide, by decide, ⟨.inl rfl, by decide⟩, ⟨.inl rfl, ready_valid _ _, by decide⟩,
    ⟨.inl rfl, ready_valid _ _, by decide⟩⟩

theorem meets_BufferBoundary :
    atRest (ready 0 (zState 0)) ∧ (∀ cap (j : Fin 16), (ready cap (zState 0)).sv[j] = true) ∧
    (ready 127 (zState 0)).outCap.toNat < 128 ∧ 128 ≤ (ready 128 (zState 0)).outCap.toNat ∧
    (ready 255 (zState 0)).outCap.toNat < 256 ∧ 256 ≤ (ready 256 (zState 0)).outCap.toNat ∧
    (ready 1023 (zState 0)).outCap.toNat < 1024 ∧ 1024 ≤ (ready 1024 (zState 0)).outCap.toNat :=
  ⟨.inl rfl, fun _ => ready_valid _ _, by decide⟩

theorem meets_Fault :
    (inPhase .fault).phase = .fault ∧ Instr.wrCap 5 ≠ .reset ∧ exec (.wrCap 5) (inPhase .fault) = .next (inPhase .fault) :=
  ⟨rfl, by decide, rfl⟩

theorem meets_Busy : ∀ p ∈ [Phase.repl, .col, .diag, .final, .ser],
    busyFlag (inPhase p).phase = true ∧ (inPhase p).turns = [] := by decide

theorem meets_NotBusy : ∀ p ∈ [Phase.idle, .done, .fault], busyFlag (inPhase p).phase = false := by decide

/-- A state that a run may reach in PHASE `p`. -/
def controlled (p : Phase) : State :=
  { inPhase p with
    rnd := match p with
      | .final => 10
      | .ser => 10
      | .done => 10
      | .idle => 0
      | .repl => 0
      | .col => 9
      | .diag => 9
      | .fault => 0
    bytes := if p = .done then 128 else 0
    errcode := if p = .fault then 3 else 0 }

theorem meets_ControlInv (p : Phase) : ControlInv (controlled p) where
  buffer := List.Pairwise.nil
  rounds := by cases p <;> simp [rndInRange, controlled, inPhase]
  code := by cases p <;> simp [controlled, inPhase]
  count := by cases p <;> simp [controlled, inPhase, byteCount, blockCount, ready, State.reset]
  launch := fun _ => ⟨fun j => ready_valid 1024 (zState 0) j, by cases p <;> decide⟩
  sites := fun _ _ => rfl

theorem controlled_phase (p : Phase) : (controlled p).phase = p := rfl

theorem meets_StatusWordValues : ∀ p : Phase, ControlInv (controlled p) ∧ (controlled p).phase = p :=
  fun p => ⟨meets_ControlInv p, rfl⟩

theorem meets_ReadStateWord :
    busyFlag State.reset.phase = false ∧ State.reset.sv[(0 : Fin 16)] = false ∧
    busyFlag (ready 0 (zState 0)).phase = false ∧ (ready 0 (zState 0)).sv[(15 : Fin 16)] = true := by decide

theorem meets_ReadKeystream :
    busyFlag (ready 128 (zState 0)).phase = false ∧ (127#32).toNat < (ready 128 (zState 0)).outCap.toNat ∧
    Memory.read [(127, 0x6f)] 127 = some 0x6f ∧ Memory.read [(127, 0x6f)] 126 = none := by decide

theorem meets_QuarterRoundWords :
    (0 : Fin 16) ≠ 5 ∧ (0 : Fin 16) ≠ 10 ∧ (0 : Fin 16) ≠ 15 ∧ (5 : Fin 16) ≠ 10 ∧ (5 : Fin 16) ≠ 15 ∧
    (10 : Fin 16) ≠ 15 := by decide

theorem meets_RotlIsCircular : 0 < 1 ∧ 1 < 32 ∧ 31 < 32 := by decide

theorem meets_OwnPhase : (inPhase .repl).phase = .repl ∧ (inPhase .col).phase = .col ∧ (inPhase .diag).phase = .diag ∧
    (inPhase .final).phase = .final ∧ (inPhase .ser).phase = .ser ∧
    (inPhase .diag).rnd ≠ 9#4 ∧ (controlled .diag).rnd = 9#4 ∧
    (inPhase .col).sitesDone = Vector.replicate 4 false := by decide

theorem meets_QuarterRoundSite :
    (inPhase .col).phase = phaseOfHalf 0 ∧ (inPhase .col).sitesDone[(0 : Fin 4)] = false ∧
    (inPhase .diag).phase = phaseOfHalf 1 ∧ (inPhase .diag).sitesDone[(3 : Fin 4)] = false := by decide

theorem meets_RowsAreIndependent :
    (0 : Fin 16).val < blockCount (inPhase .col).tierl ∧ (1 : Fin 16).val < blockCount (inPhase .col).tierl ∧
    (inPhase .col).w[(0 : Fin 16)] = (inPhase .col).w[(1 : Fin 16)] ∧
    (inPhase .diag).w[(0 : Fin 16)] = (inPhase .diag).w[(1 : Fin 16)] ∧
    (inPhase .col).phase = .col ∧ (inPhase .diag).phase = .diag :=
  ⟨by decide, by decide, rfl, rfl, rfl, rfl⟩

theorem meets_OutOfPhase : (inPhase .idle).phase ≠ .repl ∧ (inPhase .repl).phase ≠ .col ∧ (inPhase .col).phase ≠ .diag ∧
    (inPhase .ser).phase ≠ .final ∧ (inPhase .done).phase ≠ .ser ∧ (inPhase .diag).phase ≠ phaseOfHalf 0 ∧
    (inPhase .col).phase ≠ phaseOfHalf 1 := by decide

theorem meets_SiteAlreadyDone :
    (inPhase .diag).phase = phaseOfHalf 1 ∧ (Vector.replicate 4 false |>.set 3 true)[(3 : Fin 4)] = true := by decide

theorem test_site_already_done_refused :
    refusal (exec (.qr 0 0) { inPhase .col with sitesDone := (Vector.replicate 4 false).set 0 true })
      = some .siteAlreadyDone := by decide +kernel

theorem meets_StepsLeft : ∀ p ∈ [Phase.repl, .col, .diag, .final, .ser],
    ControlInv (controlled p) ∧ busyFlag (controlled p).phase = true ∧ (controlled p).turns = [] :=
  fun p hp => ⟨meets_ControlInv p, by revert p; decide, rfl⟩

theorem meets_TwoCommands :
    commandTier 0x100 = some .narrow ∧ commandTier 0x102 = some .wide ∧ commandReady .narrow (ready 1024 (zState 0)) ∧
    commandReady .wide (ready 1024 (zState 0)) ∧ (ready 1024 (zState 0)).turns = [] :=
  ⟨by decide, by decide, ⟨.inl rfl, ready_valid _ _, by decide⟩, ⟨.inl rfl, ready_valid _ _, by decide⟩, rfl⟩

theorem meets_PolledMoves :
    (∀ m ∈ Turn.packet (.host 0x48 0) :: (List.replicate 23 Turn.core ++ [.packet (.host 0x48 0)]),
      m = .core ∨ ∃ d, m = .packet (.host 0x48#8 d)) ∧
    (Turn.packet (.host 0x48 0) :: (List.replicate 23 Turn.core ++ [.packet (.host 0x48 0)])).count .core = 23 := by
  refine ⟨fun m hm => ?_, by decide⟩
  simp only [List.mem_cons, List.mem_append, List.mem_replicate, List.not_mem_nil, or_false] at hm
  rcases hm with rfl | ⟨-, rfl⟩ | rfl
  · exact .inr ⟨0, rfl⟩
  · exact .inl rfl
  · exact .inr ⟨0, rfl⟩

theorem meets_AdvancedCounter :
    commandTier 0x100 = some .narrow ∧ commandTier 0x101 = some .medium ∧ commandReady .narrow (ready 128 (zState 0)) ∧
    commandReady .medium (ready 256 (zState 0)) ∧ (ready 128 (zState 0)).turns = [] ∧ (ready 256 (zState 0)).turns = [] ∧
    (ready 128 (zState 0)).sReg = (ready 256 (zState 0)).sReg ∧
    blockCount .narrow + blockCount .narrow ≤ blockCount .medium :=
  ⟨by decide, by decide, ⟨.inl rfl, ready_valid _ _, by decide⟩, ⟨.inl rfl, ready_valid _ _, by decide⟩, rfl, rfl, rfl,
    by decide⟩

theorem meets_TwoStates :
    commandTier 0x100 = some .narrow ∧ commandReady .narrow (ready 128 (zState 0)) ∧
    commandReady .narrow (controlled .done) ∧ (ready 128 (zState 0)).turns = [] ∧ (controlled .done).turns = [] ∧
    (ready 128 (zState 0)).sReg = (controlled .done).sReg :=
  ⟨by decide, ⟨.inl rfl, ready_valid _ _, by decide⟩,
    ⟨.inr rfl, fun j => ready_valid 1024 (zState 0) j, by decide⟩, rfl, rfl, rfl⟩

theorem meets_InputsChange :
    exec .rdStatus State.reset = .next { State.reset with reply := .word 0 } ∧ Instr.rdStatus ≠ .reset ∧
    (∀ j v, Instr.rdStatus ≠ .wrS j v) ∧ (∀ v, Instr.rdStatus ≠ .wrCap v) := by
  refine ⟨rfl, by decide, fun _ _ => by simp, fun _ => by simp⟩

theorem meets_BufferWritten :
    (∃ t, exec .reset (inPhase .done) = .next t) ∧ Instr.reset ≠ .ser ∧ busyFlag (inPhase .done).phase = false :=
  ⟨⟨_, rfl⟩, by decide, rfl⟩

theorem meets_ControlRegisters :
    (∃ t, exec .genM (ready 256 (zState 0)) = .next t ∧ t.tierl ≠ (ready 256 (zState 0)).tierl) ∧ Instr.genM ≠ .reset ∧
    (∃ t, exec (.wrCmd 0x103) State.reset = .next t ∧ t.errcode ≠ State.reset.errcode) ∧ Instr.wrCmd 0x103 ≠ .reset ∧
    (∃ t, exec .rdCap (inPhase .done) = .next t) ∧ Instr.rdCap ≠ .reset ∧ Instr.rdCap ≠ .repl ∧ Instr.rdCap ≠ .diaground ∧
    Instr.rdCap ≠ .genN ∧ Instr.rdCap ≠ .genM ∧ Instr.rdCap ≠ .genW ∧ (∀ c, Instr.rdCap ≠ .wrCmd c) ∧
    Instr.rdCap ≠ .ser := by
  refine ⟨⟨_, rfl, by decide⟩, by decide, ⟨_, rfl, by decide⟩, by decide, ⟨_, rfl⟩, by decide, by decide, by decide, by decide,
    by decide, by decide, fun _ => by simp, by decide⟩

theorem meets_AccessesLeave : ∃ t, exec (.wrS 15 7) (inPhase .done) = .next t := ⟨_, rfl⟩

theorem meets_BufferStaysCanonical :
    Memory.wf ({ inPhase .done with ks := [(0, 1), (5, 2)] } : State).ks ∧
    step { inPhase .done with ks := [(0, 1), (5, 2)] } = .next { inPhase .done with ks := [(0, 1), (5, 2)] } :=
  ⟨by decide, rfl⟩

theorem meets_StepKeepsControl :
    ControlInv (controlled .ser) ∧ ∃ t, step (controlled .ser) = .next t := ⟨meets_ControlInv .ser, ⟨_, rfl⟩⟩

/-- After REPL of a Narrow command: the state the round engine starts from. -/
def replicatedState : State :=
  { controlled .col with
    rnd := 0
    w := Vector.ofFn fun i => advanceCounter (zState 0) i.val
    orig := Vector.ofFn fun i => advanceCounter (zState 0) i.val }

theorem meets_StepKeepsTheReference : RunInv replicatedState ∧ ∃ t, step replicatedState = .next t := by
  refine ⟨⟨?_, ?_⟩, ⟨_, rfl⟩⟩
  · have h := meets_ControlInv .col
    exact { buffer := h.buffer, rounds := show (0 : Nat) < 10 by decide, code := h.code, count := h.count, launch := h.launch, sites := h.sites }
  · refine ⟨fun i _ b hb => ?_, fun _ i _ => ?_⟩
    · obtain rfl := Option.some.inj hb
      show (Vector.ofFn fun i : Fin 16 => advanceCounter (zState 0) i.val)[i.val] = _
      rw [Vector.getElem_ofFn]
      rfl
    · show (Vector.ofFn fun i : Fin 16 => advanceCounter (zState 0) i.val)[i.val] = _
      rw [Vector.getElem_ofFn]
      rfl

theorem meets_ResetResult : busyFlag (inPhase .done).phase = false := by decide

theorem meets_CommandAfterReset : commandTier 0x101 = some .medium := by decide

theorem meets_MemWrite : (3 : Nat) < 4 ∧ (4 : Nat) + 4 ≤ 8 := by decide

theorem meets_Deinterleaved : 1 < [indexBlock, zState 0].length := by decide

/-- A launched block with its Narrow command just accepted. -/
def started : State := { ready 128 (zState 0) with phase := .repl }

theorem meets_InstancesAreUnordered :
    commandTier 0x100 = some .narrow ∧ commandReady .narrow (ready 128 (zState 0)) ∧
    exec (.wrCmd 0x100) (ready 128 (zState 0)) = .next started ∧
    [inPhase .ser, started, inPhase .fault][1]? = some started ∧
    (∀ a ∈ [inPhase .ser, started, inPhase .fault], a.turns = []) ∧
    (∀ l ∈ [0, 2] ++ List.replicate 23 1, l < [inPhase .ser, started, inPhase .fault].length) ∧
    23 ≤ ([0, 2] ++ List.replicate 23 1).count 1 :=
  ⟨by decide, ⟨.inl rfl, ready_valid _ _, by decide⟩, rfl, rfl, by simp [inPhase, started, ready, State.reset], by decide,
    by decide⟩

end Sys2Proof.Tests
end

section
/-! The circular rotation of 00_scope R7: `rotl` is the library's `BitVec.rotateLeft`, bit by bit and as a number. -/
namespace Sys2Proof.Machine

theorem rotl_eq_rotateLeft (v : Word) {n : Nat} (hn : n < 32) : rotl v n = v.rotateLeft n :=
  (BitVec.rotateLeft_eq_rotateLeftAux_of_lt hn).symm

theorem getLsbD_rotl_add_mod (v : Word) {n k : Nat} (hn : n < 32) (hk : k < 32) :
    (rotl v n).getLsbD ((k + n) % 32) = v.getLsbD k := by
  rw [rotl_eq_rotateLeft v hn, BitVec.getLsbD_rotateLeft_of_le hn]
  rcases Nat.lt_or_ge (k + n) 32 with hstay | hwrap
  · have htarget : (k + n) % 32 = k + n := Nat.mod_eq_of_lt hstay
    simp [htarget, hstay]
  · have htarget : (k + n) % 32 = k + n - 32 := by omega
    have hlow : k + n - 32 < n := by omega
    have hsource : 32 - n + (k + n - 32) = k := by omega
    simp [htarget, hlow, hsource]

theorem toNat_rotl (v : Word) (n : Nat) :
    (rotl v n).toNat = (v.toNat <<< n) % 2 ^ 32 ||| v.toNat >>> (32 - n) := by
  rw [rotl, BitVec.toNat_or, BitVec.toNat_shiftLeft, BitVec.toNat_ushiftRight]

/-- Settles O27: a bit below the cut moves up by `n`, a bit above it wraps round by 32. -/
theorem rotlIsCircular : Obligations.RotlIsCircular := fun v n _ hn =>
  ⟨fun _ hk => getLsbD_rotl_add_mod v hn hk, toNat_rotl v n⟩

end Sys2Proof.Machine
end

section
/-! Steps as moves and effects: what a step keeps, and the operation it runs (10_state R15, R29). -/
namespace Sys2Proof.Machine

/-- A property that taking a turn off the list and every effect of an operation keep is kept by every step. -/
theorem step_keeps {P : State → Prop} (hturns : ∀ s rest, P s → P { s with turns := rest })
    (heffect : ∀ s i t, P s → Effect s i t → P t) {s t : State} (hs : P s) (h : step s = .next t) : P t := by
  have htaken : P (nextPacket s).2 := by
    obtain ⟨rest, hrest⟩ := nextPacket_state s
    exact hrest ▸ hturns s rest hs
  rcases step_next h with ⟨-, rfl⟩ | ⟨p, i, -, -, hexec⟩
  · exact htaken
  · exact heffect _ i t htaken (exec_effect hexec)

/-- A listed packet that is an operation is run, with its turn taken off the list. -/
theorem step_packetTurn {s : State} {p : Packet} {rest : List Turn} {i : Instr} (ht : s.turns = .packet p :: rest)
    (hd : decode p = .ok i) : step s = exec i { s with turns := rest } := by
  have hevent : p ≠ .event 0#1 := by
    rintro rfl
    cases hd
  simp [step, nextPacket_packet ht, hevent, hd]

/-- Settles O8: a decoded packet is no silent event, and a core turn is the operation PHASE names. -/
theorem stepRunsTheDecodedOperation : Obligations.StepRunsTheDecodedOperation :=
  ⟨fun _ _ _ _ ht hd => ⟨decode_wellFormed hd, step_packetTurn ht hd⟩,
    fun _ _ i ht hb hd => step_coreTurn ht i hb hd,
    fun _ i ht hb hd => step_core ht i hb hd⟩

end Sys2Proof.Machine
end

section
/-! The control invariant: reset establishes it and every step keeps it (10_state R16, R21; 30_encoding R49). -/
namespace Sys2Proof.Machine

theorem rnd_le_of_rndInRange {s : State} (h : rndInRange s) : s.rnd.toNat ≤ 10 := by
  unfold rndInRange at h
  split at h <;> omega

theorem rndInRange_col {s : State} (hp : s.phase = .col) : rndInRange s ↔ s.rnd.toNat < 10 := by
  simp [rndInRange, hp]

theorem rndInRange_final {s : State} (hp : s.phase = .final) : rndInRange s ↔ s.rnd.toNat = 10 := by
  simp [rndInRange, hp]

theorem rndInRange_diag {s : State} (hp : s.phase = .diag) : rndInRange s ↔ s.rnd.toNat < 10 := by
  simp [rndInRange, hp]

theorem faultCode_ne_zero_and_le (f : ContractFault) : faultCode f ≠ 0#4 ∧ (faultCode f).toNat ≤ 3 := by
  cases f <;> decide

theorem resetBlock_reset : resetBlock State.reset = State.reset := rfl

/-- RESET establishes the invariant from every state whose buffer is in its form. -/
theorem controlInv_resetBlock {s : State} (hks : s.ks.wf) : ControlInv (resetBlock s) where
  buffer := wf_bufferAfterReset hks
  rounds := Nat.zero_le 10
  code := by simp [State.reset]
  count := rfl
  launch hb := nomatch hb
  sites _ _ := rfl

theorem controlInv_reset : ControlInv State.reset :=
  resetBlock_reset ▸ controlInv_resetBlock (s := State.reset) Memory.wf_nil

/-- The host's own side and S are outside the invariant. -/
theorem ControlInv.hostSide {s : State} (h : ControlInv s) (sReg' : Block) (reply' : Reply) (turns' : List Turn) :
    ControlInv { s with sReg := sReg', reply := reply', turns := turns' } :=
  ⟨h.buffer, h.rounds, h.code, h.count, h.launch, h.sites⟩

theorem ControlInv.sitesDone_of_atRest {s : State} (h : ControlInv s) (hr : atRest s) :
    s.sitesDone = Vector.replicate 4 false := by
  refine h.sites ?_ ?_ <;> rcases hr with hr | hr <;> simp [hr]

theorem ControlInv.errcode_of_not_fault {s : State} (h : ControlInv s) (hp : s.phase ≠ .fault) : s.errcode = 0#4 :=
  not_not.1 fun hne => hp (h.code.1.1 hne)

theorem ControlInv.bytes_of_busy {s : State} (h : ControlInv s) (hb : busyFlag s.phase = true) : s.bytes = 0#32 := by
  have hp : s.phase ≠ .done := fun hp => by simp [hp, busyFlag] at hb
  simpa [hp] using h.count

theorem not_fault_of_busy {p : Phase} (hb : busyFlag p = true) : p ≠ .fault := by
  rintro rfl
  cases hb

theorem not_done_of_busy {p : Phase} (hb : busyFlag p = true) : p ≠ .done := by
  rintro rfl
  cases hb

/-- A host write at rest may change S, SV and OUT_CAP as it likes: no command is launched on them. -/
theorem ControlInv.hostWritten {s : State} (h : ControlInv s) (hr : atRest s) (sReg' : Block) (sv' : Vector Bool 16)
    (outCap' : Word) : ControlInv { s with sReg := sReg', sv := sv', outCap := outCap' } where
  buffer := h.buffer
  rounds := h.rounds
  code := h.code
  count := h.count
  launch hb := absurd hb (by simp [not_busy_of_atRest hr])
  sites := h.sites

/-- Fault entry at rest (60_exceptions R113). -/
theorem ControlInv.faulted {s : State} (h : ControlInv s) (hr : atRest s) (f : ContractFault) :
    ControlInv (raiseFault f { s with bytes := 0#32 }) where
  buffer := h.buffer
  rounds := (rnd_le_of_rndInRange h.rounds :)
  code := by simp [faultCode_ne_zero_and_le f]
  count := rfl
  launch hb := nomatch hb
  sites _ _ := h.sitesDone_of_atRest hr

/-- A command at rest: the checks of an accepted one are what `launch` asks of a busy block (40_generate_command R60). -/
theorem ControlInv.issued {s : State} (h : ControlInv s) (hr : atRest s) (c : Word) : ControlInv (issue c s) := by
  rcases issue_cases c s with ⟨f, hf⟩ | ⟨t, -, hsv, hcap, haccepted⟩
  · rw [hf]
    exact h.faulted hr f
  · rw [haccepted]
    exact {
      buffer := h.buffer
      rounds := (rnd_le_of_rndInRange h.rounds :)
      code := by simp [h.errcode_of_not_fault (not_fault_of_atRest hr)]
      count := rfl
      launch := fun _ => ⟨hsv, hcap⟩
      sites := fun _ _ => h.sitesDone_of_atRest hr }

/-- From one busy PHASE to another the core moves only W, ORIG, RND, PHASE and the marks of the sites. -/
theorem ControlInv.advanced {s : State} (h : ControlInv s) (hb : busyFlag s.phase = true) {p : Phase}
    (hp : busyFlag p = true) {w' orig' : BlockFile} {rnd' : BitVec 4} {sites' : Vector Bool 4}
    (hrnd : rndInRange { s with rnd := rnd', phase := p })
    (hsites : p ≠ .col → p ≠ .diag → sites' = Vector.replicate 4 false) :
    ControlInv { s with w := w', orig := orig', rnd := rnd', phase := p, sitesDone := sites' } where
  buffer := h.buffer
  rounds := hrnd
  code := by simp [h.errcode_of_not_fault (not_fault_of_busy hb), not_fault_of_busy hp]
  count := by simp [h.bytes_of_busy hb, not_done_of_busy hp]
  launch _ := h.launch hb
  sites := hsites

/-- DIAGROUND counts up to 10, and 10 is where FINAL follows (42_quarter_round_engine R80). -/
theorem rndInRange_diagonalRound {s : State} (h : s.rnd.toNat < 10) : rndInRange (diagonalRound s) := by
  by_cases hten : s.rnd + 1 = 10#4
  · refine (rndInRange_final (by rw [diagonalRound_phase, if_pos hten])).2 ?_
    rw [diagonalRound_rnd, hten]
    rfl
  · refine (rndInRange_col (by rw [diagonalRound_phase, if_neg hten])).2 ?_
    rw [diagonalRound_rnd]
    bv_omega

theorem busy_diagonalRound (s : State) : busyFlag (diagonalRound s).phase = true := by
  rw [diagonalRound_phase]
  split <;> rfl

/-- SER ends the command: BYTES is the tier's byte count where PHASE is DONE (44_output_serializer R97). -/
theorem ControlInv.serialized {s : State} (h : ControlInv s) (hp : s.phase = .ser) : ControlInv (serialize s) where
  buffer := wf_serializeRows h.buffer _ _
  rounds := by simpa [rndInRange, hp] using h.rounds
  code := by simp [h.errcode_of_not_fault (s := s) (by simp [hp])]
  count := by simp
  launch hb := nomatch hb
  sites _ _ := h.sites (by simp [hp]) (by simp [hp])

/-- Every effect of an operation keeps the control invariant. -/
theorem ControlInv.effect {s t : State} {i : Instr} (h : ControlInv s) (he : Effect s i t) : ControlInv t := by
  cases he with
  | ignored _ _ => exact h
  | issued _ c _ hr => exact h.issued hr c
  | wroteWord j hj v hr => exact h.hostWritten hr _ _ _
  | wroteCap v hr => exact h.hostWritten hr _ _ _
  | replied _ v _ => exact h.hostSide _ v _
  | replicated hp =>
    exact h.advanced (p := .col) (by rw [hp]; rfl) rfl (Nat.zero_lt_succ 9) (fun _ _ => rfl)
  | columned hp =>
    exact h.advanced (p := .diag) (by rw [hp]; rfl) rfl ((rndInRange_col hp).1 h.rounds) (fun _ _ => rfl)
  | diagonaled hp =>
    exact h.advanced (by rw [hp]; rfl) (busy_diagonalRound s)
      (rndInRange_diagonalRound ((rndInRange_diag hp).1 h.rounds)) (fun _ _ => rfl)
  | fed hp =>
    exact h.advanced (p := .ser) (by rw [hp]; rfl) rfl ((rndInRange_final hp).1 h.rounds)
      (fun _ _ => h.sites (by simp [hp]) (by simp [hp]))
  | serialized hp => exact h.serialized hp
  | site half q _ _ hp _ =>
    have hround : s.phase = .col ∨ s.phase = .diag := by
      rw [hp, phaseOfHalf]
      split <;> simp
    have hb : busyFlag s.phase = true := by rcases hround with hr | hr <;> rw [hr] <;> rfl
    exact h.advanced hb hb h.rounds fun hcol hdiag => (hround.elim hcol hdiag).elim
  | reset => exact controlInv_resetBlock h.buffer

/-- Settles O49: the control invariant speaks of neither `turns` nor a resting step, and every effect keeps it. -/
theorem stepKeepsControl : Obligations.StepKeepsControl := fun _ _ =>
  step_keeps (fun s rest h => h.hostSide s.sReg s.reply rest) fun _ _ _ => ControlInv.effect

/-- Settles O51: after reset no row of W is expected to hold anything. -/
theorem resetSatisfiesTheInvariants : Obligations.ResetSatisfiesTheInvariants where
  control := controlInv_reset
  work :=
    { working := fun _ _ _ hb => nomatch hb
      original := fun hround => by simp [State.reset] at hround }

/-- Settles O52: each value is the one `State.reset` writes. -/
theorem resetValues : Obligations.ResetValues :=
  ⟨rfl, rfl, rfl, rfl, fun j => by simp [State.reset], rfl, by decide⟩

end Sys2Proof.Machine
end

section
/-! Which operation writes which register, read off the effects (10_state R27). -/
namespace Sys2Proof.Machine

/-! ### What an issue leaves unchanged -/

@[simp] theorem issue_sReg (c : Word) (s : State) : (issue c s).sReg = s.sReg := by
  rcases issue_cases c s with ⟨f, h⟩ | ⟨t, -, -, -, h⟩ <;> simp [h]

@[simp] theorem issue_sv (c : Word) (s : State) : (issue c s).sv = s.sv := by
  rcases issue_cases c s with ⟨f, h⟩ | ⟨t, -, -, -, h⟩ <;> simp [h]

@[simp] theorem issue_outCap (c : Word) (s : State) : (issue c s).outCap = s.outCap := by
  rcases issue_cases c s with ⟨f, h⟩ | ⟨t, -, -, -, h⟩ <;> simp [h]

@[simp] theorem issue_rnd (c : Word) (s : State) : (issue c s).rnd = s.rnd := by
  rcases issue_cases c s with ⟨f, h⟩ | ⟨t, -, -, -, h⟩ <;> simp [h]

@[simp] theorem issue_bytes (c : Word) (s : State) : (issue c s).bytes = 0#32 := by
  rcases issue_cases c s with ⟨f, h⟩ | ⟨t, -, -, -, h⟩ <;> simp [h]

/-- TIERL moves only where the command is accepted. -/
theorem phase_issue_of_tierl_ne {c : Word} {s : State} (hne : (issue c s).tierl ≠ s.tierl) :
    (issue c s).phase = .repl := by
  rcases issue_cases c s with ⟨f, h⟩ | ⟨t, -, -, -, h⟩
  · simp [h] at hne
  · simp [h]

/-- ERRCODE moves only where the command faults. -/
theorem phase_issue_of_errcode_ne {c : Word} {s : State} (hne : (issue c s).errcode ≠ s.errcode) :
    (issue c s).phase = .fault := by
  rcases issue_cases c s with ⟨f, h⟩ | ⟨t, -, -, -, h⟩
  · simp [h]
  · simp [h] at hne

/-! ### The writers of each register -/

/-- The operations that write the command port: WR.CMD and its three mnemonics (45_host_access R103). -/
def isCommand (i : Instr) : Prop := i = .genN ∨ i = .genM ∨ i = .genW ∨ ∃ c, i = .wrCmd c

theorem isCommand_of_issued {i : Instr} {c : Word} (h : i = .genN ∨ i = .genM ∨ i = .genW ∨ i = .wrCmd c) :
    isCommand i :=
  h.imp_right <| .imp_right <| .imp_right fun h => ⟨c, h⟩

theorem Effect.sReg_sv_eq {s t : State} {i : Instr} (h : Effect s i t) (hreset : i ≠ .reset)
    (hwrS : ∀ j v, i ≠ .wrS j v) : t.sReg = s.sReg ∧ t.sv = s.sv := by
  cases h with
  | wroteWord j _ v _ => exact absurd rfl (hwrS j v)
  | reset => exact absurd rfl hreset
  | issued _ c _ _ => simp
  | _ => exact ⟨rfl, rfl⟩

theorem Effect.outCap_eq {s t : State} {i : Instr} (h : Effect s i t) (hreset : i ≠ .reset)
    (hwrCap : ∀ v, i ≠ .wrCap v) : t.outCap = s.outCap := by
  cases h with
  | wroteCap v _ => exact absurd rfl (hwrCap v)
  | reset => exact absurd rfl hreset
  | issued _ c _ _ => simp
  | _ => rfl

theorem Effect.rnd_eq {s t : State} {i : Instr} (h : Effect s i t) (hreset : i ≠ .reset) (hrepl : i ≠ .repl)
    (hdiag : i ≠ .diaground) : t.rnd = s.rnd := by
  cases h with
  | replicated _ => exact absurd rfl hrepl
  | diagonaled _ => exact absurd rfl hdiag
  | reset => exact absurd rfl hreset
  | issued _ c _ _ => simp
  | _ => rfl

theorem Effect.bytes_eq {s t : State} {i : Instr} (h : Effect s i t) (hreset : i ≠ .reset)
    (hcommand : ¬isCommand i) (hser : i ≠ .ser) : t.bytes = s.bytes := by
  cases h with
  | issued _ c hc _ => exact absurd (isCommand_of_issued hc) hcommand
  | serialized _ => exact absurd rfl hser
  | reset => exact absurd rfl hreset
  | _ => rfl

/-- Where an effect moves TIERL or ERRCODE, it is an issue at rest: no other effect but RESET's writes them. -/
theorem Effect.issued_of_ne {s t : State} {i : Instr} (h : Effect s i t) (hreset : i ≠ .reset)
    (hne : t.tierl ≠ s.tierl ∨ t.errcode ≠ s.errcode) :
    isCommand i ∧ atRest s ∧ ∃ c, t = issue c s := by
  cases h with
  | issued _ c hc hr => exact ⟨isCommand_of_issued hc, hr, c, rfl⟩
  | reset => exact absurd rfl hreset
  | _ => exact hne.elim (absurd rfl) (absurd rfl)

/-- Settles O44: only WR.S and RESET reach S and SV, only WR.CAP and RESET reach OUT_CAP. -/
theorem inputsChangeByTheHostOnly : Obligations.InputsChangeByTheHostOnly := fun _ _ _ hexec hreset =>
  ⟨(exec_effect hexec).sReg_sv_eq hreset, (exec_effect hexec).outCap_eq hreset⟩

/-- Settles O46: an issue accounts for TIERL and ERRCODE, and each other register for its own operations. -/
theorem controlRegistersHaveTheirWriters : Obligations.ControlRegistersHaveTheirWriters := by
  intro i s t hexec hreset
  have heffect := exec_effect hexec
  refine ⟨fun htierl => ?_, heffect.rnd_eq hreset, fun herrcode => ?_, fun hN hM hW hCmd => ?_⟩
  · obtain ⟨hcommand, hr, c, rfl⟩ := heffect.issued_of_ne hreset (.inl htierl)
    exact ⟨hcommand, hr, phase_issue_of_tierl_ne htierl⟩
  · obtain ⟨hcommand, hr, c, rfl⟩ := heffect.issued_of_ne hreset (.inr herrcode)
    exact ⟨hcommand, hr, phase_issue_of_errcode_ne herrcode, issue_bytes c s⟩
  · exact heffect.bytes_eq hreset (by simp [isCommand, hN, hM, hW, hCmd])

end Sys2Proof.Machine
end

section
/-! The accesses that are no command: what they leave, and what they do not read (10_state R15, R17; 60_exceptions R124). -/
namespace Sys2Proof.Machine

/-- `s` with other values in the four registers that no access shows. -/
def State.withHidden (w' orig' : BlockFile) (rnd' : BitVec 4) (tierl' : Tier) (s : State) : State :=
  { s with w := w', orig := orig', rnd := rnd', tierl := tierl' }

/-- The accesses that are no command (45_host_access R100 to R108 but R103). -/
def isPlainAccess (i : Instr) : Prop :=
  i = .rdStatus ∨ i = .rdBytes ∨ i = .rdCap ∨ (∃ j, i = .rdS j) ∨ (∃ off, i = .rdKs off) ∨
    (∃ j v, i = .wrS j v) ∨ (∃ v, i = .wrCap v)

theorem not_isPlainAccess_of_issued {i : Instr} {c : Word} (h : i = .genN ∨ i = .genM ∨ i = .genW ∨ i = .wrCmd c) :
    ¬isPlainAccess i := by
  rcases h with rfl | rfl | rfl | rfl <;> simp [isPlainAccess]

/-- Everything an access that is no command can change: S, SV, OUT_CAP and the host's own reply. -/
theorem Effect.frame_of_isPlainAccess {s t : State} {i : Instr} (h : Effect s i t) (hi : isPlainAccess i) :
    t = { s with sReg := t.sReg, sv := t.sv, outCap := t.outCap, reply := t.reply } := by
  cases h with
  | ignored _ _ => rfl
  | wroteWord _ _ _ _ => rfl
  | wroteCap _ _ => rfl
  | replied _ _ _ => rfl
  | issued _ c hc _ => exact absurd hi (not_isPlainAccess_of_issued hc)
  | _ => simp [isPlainAccess] at hi

section
variable (w' orig' : BlockFile) (rnd' : BitVec 4) (tierl' : Tier)

theorem hostWrite_withHidden {s t u : State} (h : hostWrite s t = .next u) :
    hostWrite (s.withHidden w' orig' rnd' tierl') (t.withHidden w' orig' rnd' tierl') =
      .next (u.withHidden w' orig' rnd' tierl') := by
  rcases hostWrite_next h with ⟨hf, rfl⟩ | ⟨hr, rfl⟩
  · exact hostWrite_fault (s := u.withHidden w' orig' rnd' tierl') hf _
  · exact hostWrite_atRest (s := s.withHidden w' orig' rnd' tierl') hr _

theorem hostRead_withHidden {s u : State} {r : Except Refusal Reply} (h : hostRead s r = .next u) :
    hostRead (s.withHidden w' orig' rnd' tierl') r = .next (u.withHidden w' orig' rnd' tierl') := by
  obtain ⟨hb, v, rfl, rfl⟩ := hostRead_next h
  exact hostRead_ok (s := s.withHidden w' orig' rnd' tierl') hb v

/-- An access that is no command does the same whatever W, ORIG, RND and TIERL hold. -/
theorem exec_withHidden {i : Instr} (hi : isPlainAccess i) {s t : State} (h : exec i s = .next t) :
    exec i (s.withHidden w' orig' rnd' tierl') = .next (t.withHidden w' orig' rnd' tierl') := by
  rcases hi with rfl | rfl | rfl | ⟨j, rfl⟩ | ⟨off, rfl⟩ | ⟨j, v, rfl⟩ | ⟨v, rfl⟩
  · obtain rfl := Host.Outcome.next.inj h
    rfl
  · exact hostRead_withHidden (r := .ok (.word s.bytes)) w' orig' rnd' tierl' h
  · exact hostRead_withHidden (r := .ok (.word s.outCap)) w' orig' rnd' tierl' h
  · simp only [exec, execRdS] at h ⊢
    split at h
    · rw [dif_pos ‹_›]
      exact hostRead_withHidden w' orig' rnd' tierl' h
    · cases h
  · simp only [exec, execRdKs] at h
    exact hostRead_withHidden w' orig' rnd' tierl' h
  · simp only [exec, execWrS] at h ⊢
    split at h
    · rw [dif_pos ‹_›]
      exact hostWrite_withHidden w' orig' rnd' tierl' h
    · cases h
  · exact hostWrite_withHidden (t := { s with outCap := v }) w' orig' rnd' tierl' h

end

/-- Settles O47: an access writes none of these registers, and its guards and answers read none of the four hidden ones. -/
theorem accessesLeaveTheSequencer : Obligations.AccessesLeaveTheSequencer := by
  intro s t i hi hexec
  have hframe := (exec_effect hexec).frame_of_isPlainAccess hi
  refine ⟨?_, ?_, ?_, ?_, ?_, ?_, fun w' orig' rnd' tierl' => exec_withHidden w' orig' rnd' tierl' hi hexec⟩ <;>
    rw [hframe]

end Sys2Proof.Machine
end

section
/-! The run of an accepted command, computed: 23 core steps that leave the reference keystream (40_generate_command R64, R66). -/
namespace Sys2Proof.Machine

/-- Where a command started in `u` stands after REPL and `n` double rounds (42_quarter_round_engine R82). -/
def afterDoubleRounds (u : State) (n : Nat) : State :=
  { replicate u with
    w := mapRows (blockCount u.tierl) (fun i _ => doubleRounds n (advanceCounter u.sReg i.val)) u.w
    rnd := BitVec.ofNat 4 n
    phase := if n = 10 then .final else .col }

/-- Where it stands when DONE: ten double rounds, FINAL and SER (43_finalizer_adder R91, 44_output_serializer R95). -/
def commandEnd (u : State) : State := serialize (feedForward (afterDoubleRounds u 10))

theorem mapRows_congr {n : Nat} {g h : Fin 16 → Block → Block} (f : BlockFile)
    (heq : ∀ (i : Fin 16) b, i.val < n → g i b = h i b) : mapRows n g f = mapRows n h f := by
  refine rows_ext fun i => ?_
  rw [getElem_mapRows, getElem_mapRows]
  split
  · exact heq i _ ‹_›
  · rfl

theorem mapRows_replicaOf (u : State) (f : BlockFile) :
    mapRows (blockCount u.tierl) (fun i _ => replicaOf u.tierl u.sReg i.val) f =
      mapRows (blockCount u.tierl) (fun i _ => advanceCounter u.sReg i.val) f :=
  mapRows_congr f fun _ _ hi => replicaOf_eq _ _ hi

theorem replicate_eq_afterDoubleRounds (u : State) : replicate u = afterDoubleRounds u 0 := by
  simp only [afterDoubleRounds, doubleRounds, ← mapRows_replicaOf]
  rfl

/-- The two rounds of a double round, on whole states. -/
theorem diagonalRound_columnRound_afterDoubleRounds (u : State) {n : Nat} (hn : n < 10) :
    diagonalRound (columnRound (afterDoubleRounds u n)) = afterDoubleRounds u (n + 1) := by
  have hrnd : BitVec.ofNat 4 n + 1 = BitVec.ofNat 4 (n + 1) := (BitVec.ofNat_add n 1).symm
  have hten : BitVec.ofNat 4 (n + 1) = 10#4 ↔ n + 1 = 10 := by bv_omega
  simp only [diagonalRound, columnRound, afterDoubleRounds, replicate, mapRows_mapRows, restOfRound_zero_none,
    restOfRound_one_none, doubleRounds, dround1, hrnd, hten]

/-! ### The core's steps, with no turn listed -/

theorem step_repl {s : State} (ht : s.turns = []) (hp : s.phase = .repl) : step s = .next (replicate s) := by
  rw [step_core ht .repl (by rw [hp]; rfl) (by rw [hp]; rfl)]
  exact coreOperation_inPhase hp _

theorem step_col {s : State} (ht : s.turns = []) (hp : s.phase = .col) : step s = .next (columnRound s) := by
  rw [step_core ht .colround (by rw [hp]; rfl) (by rw [hp]; rfl)]
  exact coreOperation_inPhase hp _

theorem step_diag {s : State} (ht : s.turns = []) (hp : s.phase = .diag) : step s = .next (diagonalRound s) := by
  rw [step_core ht .diaground (by rw [hp]; rfl) (by rw [hp]; rfl)]
  exact coreOperation_inPhase hp _

theorem step_final {s : State} (ht : s.turns = []) (hp : s.phase = .final) : step s = .next (feedForward s) := by
  rw [step_core ht .finalAdd (by rw [hp]; rfl) (by rw [hp]; rfl)]
  exact coreOperation_inPhase hp _

theorem step_ser {s : State} (ht : s.turns = []) (hp : s.phase = .ser) : step s = .next (serialize s) := by
  rw [step_core ht .ser (by rw [hp]; rfl) (by rw [hp]; rfl)]
  exact coreOperation_inPhase hp _

/-- From `n` double rounds done, two steps for each of the `k` left bring the command to FINAL. -/
theorem run_doubleRounds {u : State} (ht : u.turns = []) (rest k n : Nat) (hk : n + k = 10) :
    Host.Core.run Sys2Proof.core (rest + 2 * k) (afterDoubleRounds u n) =
      Host.Core.run Sys2Proof.core rest (afterDoubleRounds u 10) := by
  induction k generalizing n with
  | zero =>
    obtain rfl : n = 10 := hk
    rfl
  | succ k ih =>
    have hn : n < 10 := by omega
    have hcol : (afterDoubleRounds u n).phase = .col := if_neg hn.ne
    rw [show rest + 2 * (k + 1) = rest + 2 * k + 1 + 1 by omega, run_succ _ (step_col (s := afterDoubleRounds u n) ht hcol),
      run_succ _ (step_diag (s := columnRound (afterDoubleRounds u n)) ht rfl),
      diagonalRound_columnRound_afterDoubleRounds u hn]
    exact ih (n + 1) (by omega)

/-- The 23 steps of R64. -/
theorem run_command {u : State} (ht : u.turns = []) (hp : u.phase = .repl) :
    Host.Core.run Sys2Proof.core 23 u = .next (commandEnd u) := by
  rw [run_succ 22 (step_repl ht hp), replicate_eq_afterDoubleRounds, run_doubleRounds ht 2 10 0 rfl,
    run_succ 1 (step_final (s := afterDoubleRounds u 10) ht rfl),
    run_succ 0 (step_ser (s := feedForward (afterDoubleRounds u 10)) ht rfl)]
  rfl

/-! ### What the run leaves -/

theorem getElem_afterDoubleRounds_w (u : State) (n : Nat) {i : Fin 16} (hi : i.val < blockCount u.tierl) :
    (afterDoubleRounds u n).w[i] = doubleRounds n (advanceCounter u.sReg i.val) := by
  rw [afterDoubleRounds, getElem_mapRows, if_pos hi]

theorem getElem_afterDoubleRounds_orig (u : State) (n : Nat) {i : Fin 16} (hi : i.val < blockCount u.tierl) :
    (afterDoubleRounds u n).orig[i] = advanceCounter u.sReg i.val := by
  rw [afterDoubleRounds, replicate_orig, getElem_mapRows, if_pos hi, replicaOf_eq _ _ hi]

/-- FINAL adds to row `i < N` the `S@i` it started from; after ten double rounds that is the reference block. -/
theorem rowAt_feedForward_afterDoubleRounds (u : State) (n : Nat) {i : Nat} (hi : i < blockCount u.tierl) :
    rowAt (feedForward (afterDoubleRounds u n)).w i =
      addBlocks (doubleRounds n (advanceCounter u.sReg i)) (advanceCounter u.sReg i) := by
  obtain ⟨i, rfl⟩ : ∃ j : Fin 16, j.val = i := ⟨⟨i, hi.trans_le (blockCount_le u.tierl)⟩, rfl⟩
  have hN : (afterDoubleRounds u n).tierl = u.tierl := rfl
  rw [rowAt_of_lt _ i.isLt, ← Fin.getElem_fin, feedForward_w, hN, getElem_mapRows, if_pos hi,
    getElem_afterDoubleRounds_w u n hi, getElem_afterDoubleRounds_orig u n hi]

/-- The buffer when DONE: the reference keystream of S, and above it what stood there (40_generate_command R66, 20_memory R38). -/
theorem read_commandEnd (u : State) (a : Nat) :
    (commandEnd u).ks.read a =
      if a < blockCount u.tierl * 64 then some (keystreamByte u.sReg a) else u.ks.read a := by
  have hend : (commandEnd u).ks =
      serializeRows (feedForward (afterDoubleRounds u 10)).w u.ks (blockCount u.tierl) := rfl
  rw [hend, read_serializeRows, mul_comm (blockCount u.tierl)]
  split
  · rw [rowAt_feedForward_afterDoubleRounds u 10 (by omega)]
    rfl
  · rfl

/-- `s` after its command of tier `k` is accepted (40_generate_command R60). -/
def accepted (k : Tier) (s : State) : State := { s with bytes := 0#32, tierl := k, phase := .repl }

theorem exec_wrCmd_accepted {c : Word} {k : Tier} (hc : commandTier c = some k) {s : State} (hr : commandReady k s) :
    exec (.wrCmd c) s = .next (accepted k s) := by
  obtain ⟨hrest, hsv, hcap⟩ := hr
  have hsized : s.outCap.ult (byteCount k) = false :=
    Bool.eq_false_iff.2 fun hu => absurd ((undersized_iff s k).1 hu) (by omega)
  exact (hostWrite_atRest hrest _).trans
    (congrArg _ (issue_accepted hc ((stateComplete_iff s.sv).2 hsv) hsized))

theorem commandRun_of_ready {c : Word} {k : Tier} (hc : commandTier c = some k) {s : State} (hr : commandReady k s)
    (ht : s.turns = []) : commandRun c s (commandEnd (accepted k s)) :=
  ⟨accepted k s, exec_wrCmd_accepted hc hr, run_command ht rfl⟩

/-- Settles O41: both runs leave the keystream of the one S, and the tier's byte count. -/
theorem resultDependsOnInputsOnly : Obligations.ResultDependsOnInputsOnly := by
  intro s s' c k hc hr hr' ht ht' hS
  refine ⟨_, _, commandRun_of_ready hc hr ht, commandRun_of_ready hc hr' ht', rfl, fun a ha => ?_⟩
  rw [read_commandEnd, read_commandEnd]
  simp [accepted, ha, hS]

end Sys2Proof.Machine
end

section
/-! The buffer space: the bytes a word write leaves, and the operations that leave the buffer alone (20_memory R33, R36). -/
namespace Sys2Proof.Machine

theorem wordByte_eq_extractLsb' (v : Word) (k : Nat) : wordByte v k = v.extractLsb' (8 * k) 8 :=
  BitVec.setWidth_ushiftRight_eq_extractLsb

/-- Settles O55: inside the four bytes `read_memWrite` gives byte `k` of the word, outside them the old byte. -/
theorem memWriteIsLittleEndian : Obligations.MemWriteIsLittleEndian := by
  intro m off v
  refine ⟨fun k => ?_, fun a ha => ?_⟩
  · rw [read_memWrite, if_pos (by omega), Nat.add_sub_cancel_left, wordByte_eq_extractLsb']
  · rw [read_memWrite, if_neg (by omega)]

/-! ### The operations that leave the buffer -/

@[simp] theorem issue_ks (c : Word) (s : State) : (issue c s).ks = s.ks := by
  rcases issue_cases c s with ⟨f, h⟩ | ⟨t, -, -, -, h⟩ <;> simp [h]

@[simp] theorem issue_epoch (c : Word) (s : State) : (issue c s).epoch = s.epoch := by
  rcases issue_cases c s with ⟨f, h⟩ | ⟨t, -, -, -, h⟩ <;> simp [h]

@[simp] theorem issue_launch (c : Word) (s : State) : (issue c s).launch = s.launch := by
  rcases issue_cases c s with ⟨f, h⟩ | ⟨t, -, -, -, h⟩ <;> simp [h]

/-- What the buffer's bytes are read from changes by SER and by a RESET that abandons a command, and by nothing else. -/
theorem Effect.buffer_eq {s t : State} {i : Instr} (h : Effect s i t) (hser : i ≠ .ser)
    (hreset : i = .reset → busyFlag s.phase = false) : t.ks = s.ks ∧ t.epoch = s.epoch ∧ t.launch = s.launch := by
  cases h with
  | issued _ c _ _ => simp
  | serialized _ => exact absurd rfl hser
  | reset => simp [bufferAfterReset_rest (hreset rfl)]
  | _ => exact ⟨rfl, rfl, rfl⟩

/-- Settles O45: every effect but SER's and that of RESET in a command leaves the buffer. -/
theorem bufferWrittenBySerOnly : Obligations.BufferWrittenBySerOnly := fun _ _ _ hexec =>
  (exec_effect hexec).buffer_eq

end Sys2Proof.Machine
end

section
/-! Instances side by side: every schedule leaves each one where its own run leaves it (20_memory R42, 60_exceptions R123). -/
namespace Sys2Proof.Machine

/-- With no turn listed the core is never stopped, and no turn appears. -/
theorem step_of_no_turns {s : State} (ht : s.turns = []) : ∃ t, step s = .next t ∧ t.turns = [] := by
  cases hp : s.phase with
  | repl => exact ⟨_, step_repl ht hp, ht⟩
  | col => exact ⟨_, step_col ht hp, ht⟩
  | diag => exact ⟨_, step_diag ht hp, ht⟩
  | final => exact ⟨_, step_final ht hp, ht⟩
  | ser => exact ⟨_, step_ser ht hp, ht⟩
  | idle | done | fault => exact ⟨s, step_rest ht (by rw [hp]; rfl), ht⟩

/-- A schedule is never stopped, and leaves each of the instances where a run of its own, of as many steps as the schedule
gives it, leaves it. -/
theorem runInstances_eq_own_runs {schedule : List Nat} {all : Instances} (ht : ∀ a ∈ all, a.turns = [])
    (hlen : ∀ l ∈ schedule, l < all.length) :
    ∃ all', runInstances schedule all = some all' ∧ ∀ (k : Nat) (u : State), all[k]? = some u →
      ∃ v : State, Host.Core.run Sys2Proof.core (schedule.count k) u = .next v ∧ all'[k]? = some v := by
  induction schedule generalizing all with
  | nil => exact ⟨all, rfl, fun _ u hu => ⟨u, rfl, hu⟩⟩
  | cons l rest ih =>
    obtain ⟨hl, hrest⟩ := List.forall_mem_cons.1 hlen
    have hs : all[l]? = some all[l] := List.getElem?_eq_getElem hl
    obtain ⟨t, hstep, htt⟩ := step_of_no_turns (ht _ (List.getElem_mem hl))
    have hquiet : ∀ a ∈ all.set l t, a.turns = [] := fun a ha =>
      (List.mem_or_eq_of_mem_set ha).elim (ht a) fun h => h ▸ htt
    obtain ⟨all', hrun, hown⟩ := ih hquiet fun m hm => (hrest m hm).trans_eq List.length_set.symm
    refine ⟨all', (runInstances_cons (stepInstance_of_next hs hstep)).trans hrun, fun k u hu => ?_⟩
    by_cases hk : k = l
    · subst hk
      obtain rfl : all[k] = u := Option.some.inj (hs.symm.trans hu)
      rw [List.count_cons_self, run_succ _ hstep]
      exact hown k t (List.getElem?_set_self hl)
    · rw [List.count_cons_of_ne (Ne.symm hk)]
      exact hown k u ((List.getElem?_set_ne (Ne.symm hk)).trans hu)

/-- A run of `m + n` steps is a run of `m` and a run of `n`. -/
theorem run_add {M : Host.Core} {s t : M.State} {m : Nat} (n : Nat) (h : M.run m s = .next t) :
    M.run (m + n) s = M.run n t := by
  induction m generalizing s with
  | zero =>
    obtain rfl := Host.Outcome.next.inj h
    rw [Nat.zero_add]
  | succ m ih =>
    rw [Nat.succ_add, Host.Core.run]
    rw [Host.Core.run] at h
    split at h
    · exact ih h
    · cases h
    · cases h

/-- Where no command runs and no turn is listed, any number of steps leaves the state. -/
theorem run_rest {s : State} (ht : s.turns = []) (hb : busyFlag s.phase = false) (n : Nat) :
    Host.Core.run Sys2Proof.core n s = .next s := by
  induction n with
  | zero => rfl
  | succ n ih => rw [run_succ n (step_rest ht hb), ih]

/-- From 23 steps on, a command stands where R64's steps bring it. -/
theorem run_command_of_le {u : State} (ht : u.turns = []) (hp : u.phase = .repl) {n : Nat} (hn : 23 ≤ n) :
    Host.Core.run Sys2Proof.core n u = .next (commandEnd u) := by
  obtain ⟨m, rfl⟩ := Nat.exists_eq_add_of_le hn
  rw [run_add m (run_command ht hp)]
  exact run_rest (s := commandEnd u) ht rfl m

/-- Settles O60: among the others it ends where its own run ends, and from 23 steps on that is the end of its command. -/
theorem instancesAreUnordered : Obligations.InstancesAreUnordered := by
  intro all k s u c t schedule hc hr hexec hu ht hlen hcount
  obtain rfl : accepted t s = u := Host.Outcome.next.inj ((exec_wrCmd_accepted hc hr).symm.trans hexec)
  obtain ⟨all', hrun, hown⟩ := runInstances_eq_own_runs ht hlen
  obtain ⟨v, hv, hk⟩ := hown k _ hu
  have hquiet : (accepted t s).turns = [] := ht _ (List.mem_of_getElem? hu)
  obtain rfl : commandEnd (accepted t s) = v :=
    Host.Outcome.next.inj ((run_command_of_le hquiet rfl hcount).symm.trans hv)
  refine ⟨all', _, hrun, hk, rfl, rfl, rfl, fun a ha => ?_, fun a ha => ?_⟩
  · exact (read_commandEnd _ a).trans (if_pos ha)
  · exact (read_commandEnd _ a).trans (if_neg (Nat.not_lt.2 ha))

end Sys2Proof.Machine
end

section
/-! Packets and operations: the register map, the command word and its fields, the quarter-round sites (30_encoding R46 to
R48, R50, R51). -/
namespace Sys2Proof.Machine

/-! ### The register map (30_encoding R48) -/

/-- A HOST code is its group, what the mask 0xC3 of R48 keeps, with field `j` at bit 2. -/
theorem code_eq_group_add_index :
    ∀ code : BitVec 8, code = (code &&& 0xC3#8) + BitVec.ofNat 8 (4 * hostIndex code) := by decide

theorem writeCode_fields : ∀ j < 16,
    BitVec.ofNat 8 (0x80 + 4 * j) &&& 0xC3#8 = 0x80#8 ∧ hostIndex (BitVec.ofNat 8 (0x80 + 4 * j)) = j := by decide

theorem readCode_fields : ∀ j < 16,
    BitVec.ofNat 8 (4 * j) &&& 0xC3#8 = 0x00#8 ∧ hostIndex (BitVec.ofNat 8 (4 * j)) = j := by decide

/-- The two low bits of a HOST code are in its group. -/
theorem aligned_of_group {code group : BitVec 8} (h : code &&& 0xC3#8 = group) (hgroup : group &&& 0x03#8 = 0#8) :
    code &&& 0x03#8 = 0#8 := by
  calc code &&& 0x03#8 = (code &&& 0xC3#8) &&& 0x03#8 := by rw [BitVec.and_assoc]; rfl
    _ = 0#8 := by rw [h, hgroup]

theorem decodeHost_of_writeGroup {code : BitVec 8} (h : code &&& 0xC3#8 = 0x80#8) (data : Word) :
    decodeHost code data = .ok (.wrS (hostIndex code) data) := by
  rw [decodeHost, if_neg (not_not.2 (aligned_of_group h rfl)), if_pos h]

theorem decodeHost_of_readGroup {code : BitVec 8} (h : code &&& 0xC3#8 = 0x00#8) (data : Word) :
    decodeHost code data = .ok (.rdS (hostIndex code)) := by
  have hread : code &&& 0xC3#8 ≠ 0x80#8 := by
    rw [h]
    decide
  rw [decodeHost, if_neg (not_not.2 (aligned_of_group h rfl)), if_neg hread, if_pos h]

/-- The register map of R48: the codes that are accesses, and the operation of each. -/
theorem decodeHost_eq_ok_iff {code : BitVec 8} {data : Word} {i : Instr} :
    decodeHost code data = .ok i ↔
      (code &&& 0xC3#8 = 0x80#8 ∧ i = .wrS (hostIndex code) data) ∨
      (code &&& 0xC3#8 = 0x00#8 ∧ i = .rdS (hostIndex code)) ∨
      (code = 0xC0#8 ∧ i = .wrCap data) ∨ (code = 0x40#8 ∧ i = .rdCap) ∨ (code = 0xC4#8 ∧ i = .wrCmd data) ∨
      (code = 0x48#8 ∧ i = .rdStatus) ∨ (code = 0x4C#8 ∧ i = .rdBytes) := by
  constructor
  · intro h
    simp only [decodeHost, ite_eq_iff, reduceCtorEq, and_false, false_or, or_false, Except.ok.injEq] at h
    rcases h with ⟨-, ⟨hc, rfl⟩ | ⟨-, ⟨hc, rfl⟩ | ⟨-, ⟨hc, rfl⟩ | ⟨-, ⟨hc, rfl⟩ | ⟨-, ⟨hc, rfl⟩ |
      ⟨-, -, ⟨hc, rfl⟩ | ⟨-, -, hc, rfl⟩⟩⟩⟩⟩⟩⟩
    · exact .inl ⟨hc, rfl⟩
    · exact .inr (.inl ⟨hc, rfl⟩)
    · exact .inr (.inr (.inl ⟨hc, rfl⟩))
    · exact .inr (.inr (.inr (.inl ⟨hc, rfl⟩)))
    · exact .inr (.inr (.inr (.inr (.inl ⟨hc, rfl⟩))))
    · exact .inr (.inr (.inr (.inr (.inr (.inl ⟨hc, rfl⟩)))))
    · exact .inr (.inr (.inr (.inr (.inr (.inr ⟨hc, rfl⟩)))))
  · rintro (⟨h, rfl⟩ | ⟨h, rfl⟩ | ⟨rfl, rfl⟩ | ⟨rfl, rfl⟩ | ⟨rfl, rfl⟩ | ⟨rfl, rfl⟩ | ⟨rfl, rfl⟩)
    · exact decodeHost_of_writeGroup h data
    · exact decodeHost_of_readGroup h data
    all_goals rfl

/-- An access is encoded with the code it was decoded from. -/
theorem encode_of_decodeHost {code : BitVec 8} {data : Word} {i : Instr} (h : decodeHost code data = .ok i) :
    ∃ d, encode i = .host code d := by
  have hcode := code_eq_group_add_index code
  rcases decodeHost_eq_ok_iff.1 h with
    ⟨hg, rfl⟩ | ⟨hg, rfl⟩ | ⟨rfl, rfl⟩ | ⟨rfl, rfl⟩ | ⟨rfl, rfl⟩ | ⟨rfl, rfl⟩ | ⟨rfl, rfl⟩
  · refine ⟨data, ?_⟩
    rw [encode, BitVec.ofNat_add, ← hg, ← hcode]
  · refine ⟨0#32, ?_⟩
    rw [hg, BitVec.zero_add] at hcode
    rw [encode, ← hcode]
  all_goals exact ⟨_, rfl⟩

/-! ### The sites (30_encoding R51) -/

theorem decodeSite_ofNat : ∀ h < 2, ∀ q < 4, decodeSite (BitVec.ofNat 3 (4 * h + q)) = .qr h q := by decide

theorem site_append : ∀ h < 2, ∀ q < 4, BitVec.ofNat 1 h ++ BitVec.ofNat 2 q = BitVec.ofNat 3 (4 * h + q) := by decide

theorem siteIndexes_closedForm : ∀ h < 2, ∀ q < 4,
    (siteIndexes h q).1.val = q ∧
    (siteIndexes h q).2.1.val = 4 + (q + h) % 4 ∧
    (siteIndexes h q).2.2.1.val = 8 + (q + 2 * h) % 4 ∧
    (siteIndexes h q).2.2.2.val = 12 + (q + 3 * h) % 4 := by decide

/-! ### The command word (30_encoding R46, R47) -/

/-- The command word of a tier: ZERO1, OPC = 0x01, ZERO0, TIER (30_encoding R46). -/
def commandWord (t : Tier) : Word := 0#16 ++ 0x01#8 ++ 0#6 ++ tierCode t

theorem commandTier_eq_some_iff {c : Word} {t : Tier} : commandTier c = some t ↔ c = commandWord t := by
  constructor
  · intro h
    unfold commandTier at h
    split_ifs at h with hnarrow hmedium hwide <;> cases h
    · exact hnarrow
    · exact hmedium
    · exact hwide
  · rintro rfl
    cases t <;> rfl

theorem eq_append_iff {v w : Nat} {x : BitVec (v + w)} {hi : BitVec v} {lo : BitVec w} :
    x = hi ++ lo ↔ x.extractLsb' w v = hi ∧ x.extractLsb' 0 w = lo := by
  constructor
  · rintro rfl
    exact ⟨BitVec.extractLsb'_append_eq_left, BitVec.extractLsb'_append_eq_right⟩
  · rintro ⟨rfl, rfl⟩
    exact BitVec.extractLsb'_append_extractLsb'.symm

theorem extractLsb'_extractLsb' {w : Nat} (x : BitVec w) {start len start' len' : Nat} (h : start' + len' ≤ len) :
    (x.extractLsb' start len).extractLsb' start' len' = x.extractLsb' (start + start') len' := by
  ext k hk
  have hin : start' + k < len := by omega
  simp [hin, Nat.add_assoc]

/-- A word is the four fields of format CMD joined, taken off one after the other from TIER up. -/
theorem eq_append_iff_fields {c : Word} {zero1 : BitVec 16} {opc : BitVec 8} {zero0 : BitVec 6} {tier : BitVec 2} :
    c = zero1 ++ opc ++ zero0 ++ tier ↔
      c.extractLsb' 16 16 = zero1 ∧ c.extractLsb' 8 8 = opc ∧ c.extractLsb' 2 6 = zero0 ∧ c.extractLsb' 0 2 = tier := by
  rw [eq_append_iff (v := 30) (w := 2), eq_append_iff (v := 24) (w := 6), eq_append_iff (v := 16) (w := 8)]
  simp [extractLsb'_extractLsb', and_assoc]

theorem tierCode_ne_three (t : Tier) : tierCode t ≠ 3#2 := by cases t <;> decide

/-! ### The statements -/

/-- Settles O1: the two indexed codes and the sites give their fields back; every other packet is read as it is written. -/
theorem encodeThenDecodeGivesInstr : Obligations.EncodeThenDecodeGivesInstr := by
  intro i hi
  cases i with
  | wrS j v =>
    obtain ⟨hgroup, hindex⟩ := writeCode_fields j (of_decide_eq_true hi)
    exact (decodeHost_of_writeGroup hgroup v).trans (by rw [hindex])
  | rdS j =>
    obtain ⟨hgroup, hindex⟩ := readCode_fields j (of_decide_eq_true hi)
    exact (decodeHost_of_readGroup hgroup 0#32).trans (by rw [hindex])
  | qr h q =>
    obtain ⟨hh, hq⟩ : h < 2 ∧ q < 4 := by simpa [Instr.wellFormed] using hi
    exact congrArg Except.ok (decodeSite_ofNat h hh q hq)
  | _ => rfl

/-- Settles O3: the codes are read off the register map, and each gives its code back. -/
theorem acceptedHostCodesAreTheRegisterMap : Obligations.AcceptedHostCodesAreTheRegisterMap := by
  refine fun code data => ⟨?_, fun i => encode_of_decodeHost⟩
  simp only [decode, decodeHost_eq_ok_iff, exists_or, exists_and_left, exists_eq, and_true]

/-- Settles O5: the tier's command word is these four fields joined. -/
theorem commandWordFields : Obligations.CommandWordFields := fun _ _ =>
  commandTier_eq_some_iff.trans eq_append_iff_fields

/-- Settles O2: each word is the packet its operation is encoded with. -/
theorem specWordsDecode : Obligations.SpecWordsDecode := by
  have hdecode := encodeThenDecodeGivesInstr
  exact ⟨hdecode .genN rfl, hdecode .genM rfl, hdecode .genW rfl, hdecode (.wrS 12 _) rfl, hdecode (.wrCap _) rfl,
    hdecode (.wrCmd _) rfl, hdecode .rdStatus rfl, hdecode .rdBytes rfl, hdecode (.rdS 12) rfl, hdecode (.rdKs _) rfl,
    hdecode .repl rfl, hdecode .diaground rfl, hdecode .ser rfl, hdecode (.qr 1 2) rfl, hdecode .reset rfl⟩

/-- Settles O6: a command whose TIER field is 3 would be of a tier with code 3. -/
theorem tierTable : Obligations.TierTable := by
  refine ⟨⟨rfl, rfl, rfl⟩, ⟨rfl, rfl, rfl⟩, ⟨rfl, rfl, rfl⟩, tierCode_ne_three, ?_⟩
  refine Option.eq_none_iff_forall_ne_some.2 fun t ht => ?_
  obtain ⟨-, -, -, htier⟩ := (commandWordFields _ t).1 ht
  exact tierCode_ne_three t htier.symm

/-- Settles O7: the site `h ++ q` is the number `4 * h + q` that QR is encoded with. -/
theorem siteTable : Obligations.SiteTable := by
  refine ⟨⟨rfl, rfl, rfl, rfl⟩, ⟨rfl, rfl, rfl, rfl⟩, fun h q hh hq => siteIndexes_closedForm h hh q hq,
    fun h q hh hq => ?_⟩
  rw [site_append h hh q hq]
  exact encodeThenDecodeGivesInstr (.qr h q) (by simp [Instr.wellFormed, hh, hq])

end Sys2Proof.Machine
end

section
/-! PHASE as the host and the core see it: the STATUS word and the core's operation (30_encoding R49, R50). -/
namespace Sys2Proof.Machine

/-! ### The STATUS word (30_encoding R49) -/

theorem errFlag_of_busy {p : Phase} (hb : busyFlag p = true) : errFlag p = false :=
  decide_eq_false (not_fault_of_busy hb)

theorem doneFlag_of_busy {p : Phase} (hb : busyFlag p = true) : doneFlag p = false :=
  decide_eq_false (not_done_of_busy hb)

theorem ControlInv.errcode_of_fault {s : State} (h : ControlInv s) (hp : s.phase = .fault) :
    s.errcode = 1#4 ∨ s.errcode = 2#4 ∨ s.errcode = 3#4 := by
  obtain ⟨hiff, hle⟩ := h.code
  have hne : s.errcode ≠ 0#4 := hiff.2 hp
  bv_omega

/-- Settles O20: outside FAULT the invariant makes ERRCODE 0 and PHASE gives the low bits; in FAULT ERRCODE is 1, 2 or 3. -/
theorem statusWordValues : Obligations.StatusWordValues := by
  refine fun s h => ⟨fun hp => ?_, fun hb => ?_, fun hp => ?_, fun hp => ?_⟩
  · rw [statusWord, h.errcode_of_not_fault (by simp [hp]), hp]
    rfl
  · rw [statusWord, h.errcode_of_not_fault (not_fault_of_busy hb), errFlag_of_busy hb, doneFlag_of_busy hb, hb]
    rfl
  · rw [statusWord, h.errcode_of_not_fault (by simp [hp]), hp]
    rfl
  · rw [statusWord, hp]
    rcases h.errcode_of_fault hp with he | he | he <;> rw [he]
    · exact .inl rfl
    · exact .inr (.inl rfl)
    · exact .inr (.inr rfl)

/-! ### The core's operation (30_encoding R50) -/

theorem phaseOfCode_phaseCode (p : Phase) : phaseOfCode (phaseCode p) = p := by cases p <;> rfl

/-- With no turn listed, a block in a busy PHASE runs the operation that PHASE's UOP code decodes to. -/
theorem step_of_phase {s : State} {p : Phase} {i : Instr} (ht : s.turns = []) (hb : busyFlag p = true)
    (hd : decode (.uop (phaseCode p)) = .ok i) (hp : s.phase = p) : step s = exec i s := by
  subst hp
  exact step_core ht i hb hd

/-- Settles O9: the five busy PHASEs by their UOP codes, the resting ones by `step_rest`. -/
theorem phaseNamesTheOperation : Obligations.PhaseNamesTheOperation :=
  ⟨fun _ ht => ⟨step_of_phase ht rfl rfl, step_of_phase ht rfl rfl, step_of_phase ht rfl rfl, step_of_phase ht rfl rfl,
    step_of_phase ht rfl rfl, step_rest ht⟩, phaseOfCode_phaseCode⟩

end Sys2Proof.Machine
end

section
/-! The issue of a command: the outcome of its checks, and the three mnemonics (40_generate_command R60 to R63). -/
namespace Sys2Proof.Machine

theorem exec_wrCmd_atRest {s : State} (hr : atRest s) (c : Word) : exec (.wrCmd c) s = .next (issue c s) :=
  hostWrite_atRest hr _

theorem faultEntered_raiseFault (f : ContractFault) (s : State) :
    faultEntered (faultCode f) s (raiseFault f { s with bytes := 0#32 }) :=
  ⟨_, _, _, rfl⟩

theorem stateComplete_eq_false_iff (sv : Vector Bool 16) : stateComplete sv = false ↔ ∃ j : Fin 16, sv[j] = false := by
  simp only [← Bool.not_eq_true, stateComplete_iff, not_forall]

theorem undersized_eq_false_iff (s : State) (t : Tier) :
    s.outCap.ult (byteCount t) = false ↔ blockCount t * 64 ≤ s.outCap.toNat := by
  rw [← Bool.not_eq_true, undersized_iff, Nat.not_lt]

/-- Settles O14: each check that fails is one of the three fault entries, and passing all of them starts REPL. -/
theorem commandOutcome : Obligations.CommandOutcome := by
  intro s c hr
  refine ⟨issue c s, exec_wrCmd_atRest hr c, fun hnone => ?_, fun k hk => ⟨fun hmissing => ?_, fun hsv hsmall => ?_,
    fun hsv hlarge => ?_⟩⟩
  · rw [issue_of_not_legal hnone]
    exact faultEntered_raiseFault .eCmd s
  · rw [issue_of_incomplete hk ((stateComplete_eq_false_iff _).2 hmissing)]
    exact faultEntered_raiseFault .eState s
  · rw [issue_of_undersized hk ((stateComplete_iff _).2 hsv) ((undersized_iff s k).2 hsmall)]
    exact faultEntered_raiseFault .eBuffer s
  · rw [issue_accepted hk ((stateComplete_iff _).2 hsv) ((undersized_eq_false_iff s k).2 hlarge)]

/-- Settles O12: a mnemonic is the write of its own legal word. -/
theorem acceptedCommandResult : Obligations.AcceptedCommandResult :=
  ⟨fun _ _ _ hc hr => exec_wrCmd_accepted hc hr,
    fun _ hr => exec_wrCmd_accepted (c := 0x00000100#32) rfl hr,
    fun _ hr => exec_wrCmd_accepted (c := 0x00000101#32) rfl hr,
    fun _ hr => exec_wrCmd_accepted (c := 0x00000102#32) rfl hr⟩

end Sys2Proof.Machine
end

section
/-! Per-site steps of a round: the guards of QR, and that the sites of one round may be applied in any order
(40_generate_command R64, 42_quarter_round_engine R85). -/
namespace Sys2Proof.Machine

/-! ### The guards of the core's operations -/

theorem coreOperation_outOfPhase {p : Phase} {s : State} (h : s.phase ≠ p) (t : State) :
    coreOperation p s t = .refused .outOfPhase :=
  if_neg h

/-- `s` after the quarter round at site `h q` (42_quarter_round_engine R78). -/
def quarterRoundSite (h q : Nat) (hq : q < 4) (s : State) : State :=
  { s with
    w := mapRows (blockCount s.tierl) (fun _ b => quarterRoundAt h q b) s.w
    sitesDone := s.sitesDone.set q true }

@[simp] theorem quarterRoundSite_phase (h q : Nat) (hq : q < 4) (s : State) :
    (quarterRoundSite h q hq s).phase = s.phase := by
  rw [quarterRoundSite]

section
variable {s : State} {h : Nat} (hh : h < 2) (q : Fin 4)
include hh

theorem exec_qr_siteAlreadyDone (hp : s.phase = phaseOfHalf h) (hdone : s.sitesDone[q] = true) :
    exec (.qr h q.val) s = .refused .siteAlreadyDone :=
  (dif_pos ⟨hh, q.isLt⟩).trans (if_pos ⟨hp, hdone⟩)

theorem exec_qr_of_free (hfree : ¬(s.phase = phaseOfHalf h ∧ s.sitesDone[q] = true)) :
    exec (.qr h q.val) s = coreOperation (phaseOfHalf h) s (quarterRoundSite h q.val q.isLt s) :=
  (dif_pos ⟨hh, q.isLt⟩).trans (if_neg hfree)

theorem exec_qr_outOfPhase (hp : s.phase ≠ phaseOfHalf h) : exec (.qr h q.val) s = .refused .outOfPhase :=
  (exec_qr_of_free hh q fun hdone => hp hdone.1).trans (coreOperation_outOfPhase hp _)

theorem exec_qr_inPhase (hp : s.phase = phaseOfHalf h) (hfree : s.sitesDone[q] = false) :
    exec (.qr h q.val) s = .next (quarterRoundSite h q.val q.isLt s) :=
  (exec_qr_of_free hh q fun hdone => by simp [hfree] at hdone).trans (coreOperation_inPhase hp _)

end

/-- Settles O36: each operation is guarded by its PHASE, and QR by the marks of its round too. -/
theorem operationsOutOfPhaseRefused : Obligations.OperationsOutOfPhaseRefused := fun _ =>
  ⟨fun hp => coreOperation_outOfPhase hp _, fun hp => coreOperation_outOfPhase hp _,
    fun hp => coreOperation_outOfPhase hp _, fun hp => coreOperation_outOfPhase hp _,
    fun hp => coreOperation_outOfPhase hp _, fun h q hp => exec_qr_outOfPhase h.isLt q hp,
    fun h q hp hdone => exec_qr_siteAlreadyDone h.isLt q hp hdone⟩

/-! ### The sites of a round commute (42_quarter_round_engine R85) -/

/-- Two lines of quarter rounds that share no word may be applied in either order: no word that one of them writes is read or
written by the other. -/
theorem addXorRotl_commute {x y z x' y' z' : Fin 16} (hxz : x ≠ z) (hxz' : x' ≠ z')
    (hdisj : List.Disjoint [x, y, z] [x', y', z']) (n n' : Nat) :
    Function.Commute (addXorRotl · x y z n) (addXorRotl · x' y' z' n') := by
  intro w
  refine block_ext fun j => ?_
  simp only [List.disjoint_cons_left, List.mem_cons, List.not_mem_nil, or_false, not_or] at hdisj
  obtain ⟨⟨hx, hx', hx''⟩, ⟨hy, hy', hy''⟩, ⟨hz, hz', hz''⟩, -⟩ := hdisj
  simp only [getElem_addXorRotl _ hxz, getElem_addXorRotl _ hxz']
  grind

/-- What commutes with the lines of a quarter round commutes with the quarter round. -/
theorem commute_quarterRound {f : Block → Block} {a b c d : Fin 16}
    (hab : ∀ n, Function.Commute f (addXorRotl · a b d n)) (hcd : ∀ n, Function.Commute f (addXorRotl · c d b n)) :
    Function.Commute f (quarterRound · a b c d) :=
  (hcd 7).comp_right ((hab 8).comp_right ((hcd 12).comp_right (hab 16)))

theorem ne_of_nodup {a b c d : Fin 16} (h : [a, b, c, d].Nodup) : a ≠ d ∧ c ≠ b := by
  simp_all [eq_comm]

/-- Quarter rounds on eight distinct words may be applied in either order. -/
theorem quarterRound_commute {a b c d a' b' c' d' : Fin 16} (hnodup : ([a, b, c, d] ++ [a', b', c', d']).Nodup) :
    Function.Commute (quarterRound · a b c d) (quarterRound · a' b' c' d') := by
  obtain ⟨hl, hl', hdisj⟩ := List.nodup_append'.1 hnodup
  obtain ⟨had, hcb⟩ := ne_of_nodup hl
  obtain ⟨had', hcb'⟩ := ne_of_nodup hl'
  have hlines {x y z x' y' z' : Fin 16} (hxz : x ≠ z) (hxz' : x' ≠ z') (hxyz : [x, y, z] ⊆ [a, b, c, d])
      (hxyz' : [x', y', z'] ⊆ [a', b', c', d']) (n n' : Nat) :
      Function.Commute (addXorRotl · x y z n) (addXorRotl · x' y' z' n') :=
    addXorRotl_commute hxz hxz' (List.disjoint_of_subset_left hxyz (List.disjoint_of_subset_right hxyz' hdisj)) n n'
  have hline {x y z : Fin 16} (hxz : x ≠ z) (hxyz : [x, y, z] ⊆ [a, b, c, d]) (n : Nat) :
      Function.Commute (quarterRound · a' b' c' d') (addXorRotl · x y z n) :=
    (commute_quarterRound (hlines hxz had' hxyz (by simp) n) (hlines hxz hcb' hxyz (by simp) n)).symm
  exact (commute_quarterRound (hline had (by simp)) (hline hcb (by simp))).symm

/-- The words of site `h q`, as a list (30_encoding R51). -/
def siteWords (h q : Nat) : List (Fin 16) :=
  [(siteIndexes h q).1, (siteIndexes h q).2.1, (siteIndexes h q).2.2.1, (siteIndexes h q).2.2.2]

theorem nodup_siteWords_append : ∀ h < 2, ∀ q < 4, ∀ q' < 4, q ≠ q' → (siteWords h q ++ siteWords h q').Nodup := by
  decide

section
variable {h q q' : Nat} (hh : h < 2) (hq : q < 4) (hq' : q' < 4)
include hh hq hq'

/-- The quarter rounds of one round may be applied in either order. -/
theorem quarterRoundAt_commute : Function.Commute (quarterRoundAt h q) (quarterRoundAt h q') := by
  by_cases hsame : q = q'
  · exact hsame ▸ .refl _
  · exact quarterRound_commute (nodup_siteWords_append h hh q hq q' hq' hsame)

theorem siteUnlessDone_quarterRoundAt (done : Bool) (w : Block) :
    siteUnlessDone h q' done (quarterRoundAt h q w) = quarterRoundAt h q (siteUnlessDone h q' done w) := by
  cases done with
  | true => rfl
  | false => exact (quarterRoundAt_commute hh hq hq' w).symm

end

/-- A quarter round applied and marked ahead of its turn passes through the sites before it, and is skipped in its turn. -/
theorem restOfRound_set {h : Nat} (hh : h < 2) (q : Fin 4) {done : Vector Bool 4} (hfree : done[q] = false) (w : Block) :
    restOfRound h (done.set q true) (quarterRoundAt h q.val w) = restOfRound h done w := by
  have hskip (w : Block) : siteUnlessDone h q.val true w = w := rfl
  have hturn (w : Block) : siteUnlessDone h q.val false w = quarterRoundAt h q.val w := rfl
  simp only [restOfRound]
  fin_cases q <;> simp at hfree <;> simp [siteUnlessDone_quarterRoundAt hh, hskip, hturn, hfree]

/-! ### A per-site step and the round -/

/-- A round reads W and the marks only through the rows it leaves. -/
theorem columnRound_of_rows {s : State} {f : BlockFile} {done : Vector Bool 4}
    (hrows : mapRows (blockCount s.tierl) (fun _ b => restOfRound 0 done b) f = (columnRound s).w) :
    columnRound { s with w := f, sitesDone := done } = columnRound s :=
  congrArg ({ columnRound s with w := · }) hrows

theorem diagonalRound_of_rows {s : State} {f : BlockFile} {done : Vector Bool 4}
    (hrows : mapRows (blockCount s.tierl) (fun _ b => restOfRound 1 done b) f = (diagonalRound s).w) :
    diagonalRound { s with w := f, sitesDone := done } = diagonalRound s :=
  congrArg ({ diagonalRound s with w := · }) hrows

section
variable {s : State} (q : Fin 4) (hfree : s.sitesDone[q] = false)
include hfree

theorem mapRows_restOfRound_set {h : Nat} (hh : h < 2) (n : Nat) (f : BlockFile) :
    mapRows n (fun _ b => restOfRound h (s.sitesDone.set q true) b) (mapRows n (fun _ b => quarterRoundAt h q b) f) =
      mapRows n (fun _ b => restOfRound h s.sitesDone b) f := by
  simp only [mapRows_mapRows, restOfRound_set hh q hfree]

theorem columnRound_quarterRoundSite : columnRound (quarterRoundSite 0 q q.isLt s) = columnRound s :=
  columnRound_of_rows (mapRows_restOfRound_set q hfree Nat.two_pos _ _)

theorem diagonalRound_quarterRoundSite : diagonalRound (quarterRoundSite 1 q q.isLt s) = diagonalRound s :=
  diagonalRound_of_rows (mapRows_restOfRound_set q hfree Nat.one_lt_two _ _)

end

theorem coreOperation_congr {p : Phase} {s s' t t' : State} (hp : s.phase = s'.phase) (ht : t = t') :
    coreOperation p s t = coreOperation p s' t' := by
  rw [coreOperation, hp, ht, coreOperation]

/-- Settles O31: the round skips the marked site, whose quarter round is already there. -/
theorem siteStepsRefineTheRound : Obligations.SiteStepsRefineTheRound := by
  refine fun s q hfree => ⟨fun hp => ⟨_, exec_qr_inPhase Nat.two_pos q hp hfree, ?_⟩,
    fun hp => ⟨_, exec_qr_inPhase Nat.one_lt_two q hp hfree, ?_⟩⟩
  · exact coreOperation_congr (quarterRoundSite_phase 0 q q.isLt s) (columnRound_quarterRoundSite q hfree)
  · exact coreOperation_congr (quarterRoundSite_phase 1 q q.isLt s) (diagonalRound_quarterRoundSite q hfree)

end Sys2Proof.Machine
end

section
/-! The 23 steps of a command counted down, with the host's polls among them, and what the command leaves
(40_generate_command R64 to R68, 70_reset_and_hazards R137). -/
namespace Sys2Proof.Machine

/-! ### The steps left -/

/-- A round in progress is one of the ten: what the count of the steps left asks of RND (42_quarter_round_engine R80). -/
def roundsBounded (s : State) : Prop := s.phase = .col ∨ s.phase = .diag → s.rnd.toNat < 10

theorem roundsBounded_of_rndInRange {s : State} (h : rndInRange s) : roundsBounded s := by
  rintro (hp | hp)
  · exact (rndInRange_col hp).1 h
  · exact (rndInRange_diag hp).1 h

theorem busyFlag_iff_stepsLeft_pos (s : State) : busyFlag s.phase = true ↔ 0 < stepsLeft s := by
  unfold stepsLeft
  cases s.phase <;> simp [busyFlag]

/-- Counting up to 10 ends the double rounds; each of the others leaves two steps for every one still to come. -/
theorem stepsLeft_diagonalRound {s : State} (h : s.rnd.toNat < 10) :
    stepsLeft (diagonalRound s) = 2 * (10 - s.rnd.toNat) := by
  by_cases hten : s.rnd + 1 = 10#4
  · have hnine : s.rnd.toNat = 9 := by bv_omega
    simp only [stepsLeft, diagonalRound_phase, if_pos hten, hnine]
  · have hnext : (s.rnd + 1).toNat = s.rnd.toNat + 1 := by bv_omega
    simp only [stepsLeft, diagonalRound_phase, if_neg hten, diagonalRound_rnd, hnext]
    bv_omega

/-- With no turn listed, each step of a busy block is one of those left. -/
theorem step_countsDown {s : State} (ht : s.turns = []) (hb : busyFlag s.phase = true) (hr : roundsBounded s) :
    ∃ t, step s = .next t ∧ stepsLeft t + 1 = stepsLeft s ∧ t.turns = [] ∧ roundsBounded t := by
  cases hp : s.phase with
  | repl => exact ⟨_, step_repl ht hp, by simp [stepsLeft, hp], ht, fun _ => by simp⟩
  | col => exact ⟨_, step_col ht hp, by simp [stepsLeft, hp], ht, fun _ => hr (.inl hp)⟩
  | diag =>
    have hrnd : s.rnd.toNat < 10 := hr (.inr hp)
    refine ⟨_, step_diag ht hp, ?_, ht, roundsBounded_of_rndInRange (rndInRange_diagonalRound hrnd)⟩
    rw [stepsLeft_diagonalRound hrnd]
    simp [stepsLeft, hp]
  | final => exact ⟨_, step_final ht hp, by simp [stepsLeft, hp], ht, by simp [roundsBounded]⟩
  | ser => exact ⟨_, step_ser ht hp, by simp [stepsLeft, hp], ht, by simp [roundsBounded]⟩
  | idle | done | fault => simp [hp, busyFlag] at hb

/-- Settles O38: the control invariant bounds RND in the two rounds. -/
theorem stepsLeftCountsDown : Obligations.StepsLeftCountsDown := by
  intro s h hb ht
  obtain ⟨t, hstep, hcount, -⟩ := step_countsDown ht hb (roundsBounded_of_rndInRange h.rounds)
  exact ⟨t, hstep, hcount⟩

/-- A run shorter than the steps left keeps the block busy. -/
theorem run_busy {n : Nat} {s : State} (ht : s.turns = []) (hr : roundsBounded s) (hn : n < stepsLeft s) :
    ∃ v : State, Host.Core.run Sys2Proof.core n s = .next v ∧ busyFlag v.phase = true := by
  have hb : busyFlag s.phase = true := (busyFlag_iff_stepsLeft_pos s).2 (Nat.zero_lt_of_lt hn)
  induction n generalizing s with
  | zero => exact ⟨s, rfl, hb⟩
  | succ n ih =>
    obtain ⟨t, hstep, hcount, htt, hrt⟩ := step_countsDown ht hb hr
    have hleft : n < stepsLeft t := by omega
    rw [run_succ n hstep]
    exact ih htt hrt hleft ((busyFlag_iff_stepsLeft_pos t).2 (Nat.zero_lt_of_lt hleft))

/-! ### The host's polls -/

/-- `s` with other moves to come and another last reply: the host's own side (log 1, 10). -/
def State.withHost (moves : List Turn) (reply' : Reply) (s : State) : State :=
  { s with turns := moves, reply := reply' }

/-- The operation of a busy PHASE neither reads nor writes the host's side. -/
theorem coreOperation_withHost {p : Phase} (hb : busyFlag p = true) :
    ∃ (i : Instr) (f : State → State), decode (.uop (phaseCode p)) = .ok i ∧
      (∀ s, exec i s = coreOperation p s (f s)) ∧
      ∀ moves r s, f (State.withHost moves r s) = State.withHost moves r (f s) := by
  cases p with
  | repl => exact ⟨.repl, replicate, rfl, fun _ => rfl, fun _ _ _ => rfl⟩
  | col => exact ⟨.colround, columnRound, rfl, fun _ => rfl, fun _ _ _ => rfl⟩
  | diag => exact ⟨.diaground, diagonalRound, rfl, fun _ => rfl, fun _ _ _ => rfl⟩
  | final => exact ⟨.finalAdd, feedForward, rfl, fun _ => rfl, fun _ _ _ => rfl⟩
  | ser => exact ⟨.ser, serialize, rfl, fun _ => rfl, fun _ _ _ => rfl⟩
  | idle | done | fault => cases hb

/-- A core turn is the step the core takes where no turn is listed. -/
theorem step_withHost_core {s t : State} (ht : s.turns = []) (h : step s = .next t) (rest : List Turn) (r : Reply) :
    step (s.withHost (.core :: rest) r) = .next (t.withHost rest r) := by
  cases hb : busyFlag s.phase with
  | true =>
    obtain ⟨i, f, hd, hexec, hf⟩ := coreOperation_withHost hb
    have hrun (s' : State) (hp : s'.phase = s.phase) : exec i s' = .next (f s') :=
      (hexec s').trans (coreOperation_inPhase hp _)
    obtain rfl := Host.Outcome.next.inj (((step_core ht i hb hd).trans (hrun s rfl)).symm.trans h)
    rw [step_coreTurn (s := s.withHost (.core :: rest) r) rfl i hb hd, ← hf]
    exact hrun _ rfl
  | false =>
    obtain rfl := Host.Outcome.next.inj ((step_rest ht hb).symm.trans h)
    rw [step, nextPacket_core (s := s.withHost (.core :: rest) r) rfl]
    simp [corePacket, State.withHost, hb]

/-- Polled, the core goes where it goes alone in as many steps as it has turns. -/
theorem run_withHost {moves : List Turn} (hmoves : ∀ m ∈ moves, m = .core ∨ ∃ d, m = .packet (.host 0x48#8 d))
    {s t : State} (ht : s.turns = []) (h : Host.Core.run Sys2Proof.core (moves.count .core) s = .next t) (r : Reply) :
    ∃ r', Host.Core.run Sys2Proof.core moves.length (s.withHost moves r) = .next (t.withHost [] r') := by
  induction moves generalizing s r with
  | nil =>
    obtain rfl := Host.Outcome.next.inj h
    exact ⟨r, rfl⟩
  | cons m rest ih =>
    obtain ⟨hm, hrest⟩ := List.forall_mem_cons.1 hmoves
    rcases hm with rfl | ⟨d, rfl⟩
    · obtain ⟨s₁, hstep, ht₁⟩ := step_of_no_turns ht
      rw [List.count_cons_self, run_succ _ hstep] at h
      rw [List.length_cons, run_succ _ (step_withHost_core ht hstep rest r)]
      exact ih hrest ht₁ h r
    · rw [List.count_cons_of_ne (by simp)] at h
      rw [List.length_cons, run_succ _ (step_pollTurn (s := s.withHost _ r) rfl)]
      exact ih hrest ht h _

/-! ### The end of a command -/

@[simp] theorem commandEnd_turns (u : State) : (commandEnd u).turns = u.turns := rfl
@[simp] theorem commandEnd_sReg (u : State) : (commandEnd u).sReg = u.sReg := rfl
@[simp] theorem commandEnd_bytes (u : State) : (commandEnd u).bytes = byteCount u.tierl := rfl
@[simp] theorem accepted_turns (k : Tier) (s : State) : (accepted k s).turns = s.turns := rfl
@[simp] theorem accepted_sReg (k : Tier) (s : State) : (accepted k s).sReg = s.sReg := rfl
@[simp] theorem accepted_tierl (k : Tier) (s : State) : (accepted k s).tierl = k := rfl

theorem withHost_nil {s : State} (ht : s.turns = []) (r : Reply) : s.withHost [] r = { s with reply := r } := by
  rw [State.withHost, ht]

theorem read_commandEnd_accepted_of_lt (k : Tier) (s : State) {a : Nat} (ha : a < blockCount k * 64) :
    (commandEnd (accepted k s)).ks.read a = some (keystreamByte s.sReg a) :=
  (read_commandEnd _ a).trans (if_pos ha)

theorem read_commandEnd_accepted_of_le (k : Tier) (s : State) {a : Nat} (ha : blockCount k * 64 ≤ a) :
    (commandEnd (accepted k s)).ks.read a = s.ks.read a :=
  (read_commandEnd _ a).trans (if_neg (Nat.not_lt.2 ha))

/-! ### The contract of a command -/

/-- Settles O39: the run ends in `commandEnd`, is busy while steps are left, and its polls move the reply only. -/
theorem commandMeetsTheReference : Obligations.CommandMeetsTheReference := by
  intro s c k hc hready ht
  have hrun : Host.Core.run Sys2Proof.core 23 (accepted k s) = .next (commandEnd (accepted k s)) := run_command ht rfl
  refine ⟨accepted k s, commandEnd (accepted k s), exec_wrCmd_accepted hc hready,
    fun n hn => run_busy ht (by simp [roundsBounded, accepted]) hn, hrun, rfl, rfl, byteCount_toNat k,
    fun _ => read_commandEnd_accepted_of_lt k s, fun _ => read_commandEnd_accepted_of_le k s, rfl, rfl, rfl, rfl,
    fun moves hmoves hcount => ⟨exec_wrCmd_accepted hc hready, ?_⟩⟩
  obtain ⟨r', hpolled⟩ := run_withHost (s := accepted k s) hmoves ht (hcount.symm ▸ hrun) s.reply
  exact ⟨_, hpolled, withHost_nil (s := commandEnd (accepted k s)) ht r'⟩

/-! ### Two commands on one S -/

/-- Settles O40: below either tier's end both have written the keystream of the one S. -/
theorem tierIndependenceOfContent : Obligations.TierIndependenceOfContent := by
  intro s c1 c2 k1 k2 hc1 hc2 hr1 hr2 ht
  refine ⟨_, _, commandRun_of_ready hc1 hr1 ht, commandRun_of_ready hc2 hr2 ht,
    fun a ha => ⟨keystreamByte s.sReg a, ?_, ?_⟩⟩
  · exact read_commandEnd_accepted_of_lt k1 s (by omega)
  · exact read_commandEnd_accepted_of_lt k2 s (by omega)

/-- The end of a command is where the next may be issued: S, SV and OUT_CAP are as they were. -/
theorem commandReady_commandEnd {k : Tier} {s : State} (h : commandReady k s) :
    commandReady k (commandEnd (accepted k s)) :=
  ⟨.inr rfl, h.2⟩

/-- Settles O42: the second command writes the keystream of the same S over the first one's. -/
theorem repeatedCommandWritesTheSameBytes : Obligations.RepeatedCommandWritesTheSameBytes := by
  intro s c k hc hr ht
  refine ⟨_, _, commandRun_of_ready hc hr ht, commandRun_of_ready hc (commandReady_commandEnd hr) (by simpa using ht),
    by simp, by simp, fun a => ?_⟩
  rcases Nat.lt_or_ge a (blockCount k * 64) with hbelow | habove
  · exact (read_commandEnd_accepted_of_lt k _ hbelow).trans (read_commandEnd_accepted_of_lt k s hbelow).symm
  · exact read_commandEnd_accepted_of_le k _ habove

end Sys2Proof.Machine
end

section
/-! REPL: the rows it writes, and the vector form that broadcasts and adds the delta table (41_state_replicator R71 to R75). -/
namespace Sys2Proof.Machine

section
variable (s : State) {i : Fin 16} (hi : i.val < blockCount s.tierl)
include hi

theorem getElem_replicate_w : (replicate s).w[i] = advanceCounter s.sReg i.val := by
  rw [replicate_w, getElem_mapRows, if_pos hi, replicaOf_eq _ _ hi]

theorem getElem_replicate_orig : (replicate s).orig[i] = advanceCounter s.sReg i.val := by
  rw [replicate_orig, getElem_mapRows, if_pos hi, replicaOf_eq _ _ hi]

end

section
variable (s : State) {i : Fin 16} (hi : blockCount s.tierl ≤ i.val)
include hi

theorem getElem_replicate_w_of_le : (replicate s).w[i] = s.w[i] := by
  rw [replicate_w, getElem_mapRows, if_neg (Nat.not_lt.2 hi)]

theorem getElem_replicate_orig_of_le : (replicate s).orig[i] = s.orig[i] := by
  rw [replicate_orig, getElem_mapRows, if_neg (Nat.not_lt.2 hi)]

end

/-- The counter wraps modulo 2^32 (41_state_replicator R74). -/
theorem toNat_counter_advanceCounter (s : Block) (i : Nat) :
    ((advanceCounter s i)[12]).toNat = (s[12].toNat + i) % 2 ^ 32 := by
  simp [advanceCounter]

/-- Settles O25: below N both files hold `S@i`, from N up they hold their old rows. -/
theorem replicateResult : Obligations.ReplicateResult := by
  refine fun s hp => ⟨(replicate s).w, (replicate s).orig, coreOperation_inPhase hp _, fun i j hi => ?_,
    fun i hi => ⟨getElem_replicate_w_of_le s hi, getElem_replicate_orig_of_le s hi⟩⟩
  rw [getElem_replicate_w s hi, getElem_replicate_orig s hi]
  exact ⟨getElem_advanceCounter s.sReg i.val j, rfl, toNat_counter_advanceCounter s.sReg i.val⟩

/-! ### The vector form -/

/-- Adding to a broadcast word adds it in every lane. -/
theorem laneAdd_replicate (a : Word) (l : List Word) : laneAdd (List.replicate l.length a) l = l.map (a + ·) := by
  induction l with
  | nil => rfl
  | cons x l ih => exact congrArg (List.cons (a + x)) ih

/-- The vector form register by register: word 12 gets the tier's deltas, the others are the broadcast (41_state_replicator R73). -/
theorem getElem_replicateSliced (t : Tier) (s : Block) (j : Fin 16) :
    (replicateSliced t s)[j] =
      if j.val = 12 then (List.range (blockCount t)).map (s[12] + Config.delta t ·)
      else List.replicate (blockCount t) s[j] := by
  have hcounter : laneAdd (List.replicate (blockCount t) s[12]) ((List.range (blockCount t)).map (Config.delta t)) =
      (List.range (blockCount t)).map (s[12] + Config.delta t ·) := by
    simpa [Function.comp_def] using laneAdd_replicate s[12] ((List.range (blockCount t)).map (Config.delta t))
  simp [replicateSliced, Vector.getElem_set, hcounter, eq_comm]

/-- Settles O58: lane `i` of register `j` is word `j` of `S@i` in both. -/
theorem vectorReplicatorEqualsReplicate : Obligations.VectorReplicatorEqualsReplicate := by
  intro t s
  ext1 j hj
  have hpacked : (packSliced ((List.range (blockCount t)).map (advanceCounter s)))[j] =
      (List.range (blockCount t)).map fun i => (advanceCounter s i)[(⟨j, hj⟩ : Fin 16)] := by
    simp [packSliced]
  refine (getElem_replicateSliced t s ⟨j, hj⟩).trans (Eq.trans ?_ hpacked.symm)
  simp only [getElem_advanceCounter]
  split
  · exact List.map_congr_left fun i hi => by rw [delta_eq t (List.mem_range.1 hi)]
  · simp

end Sys2Proof.Machine
end

section
/-! The run invariant: every step keeps W the reference computation as far as it has come (41_state_replicator R71, R75;
42_quarter_round_engine R81, R82, R89; 43_finalizer_adder R91). -/
namespace Sys2Proof.Machine

/-! ### A round whose sites are applied one by one (log 11) -/

theorem sitesApplied_none (h : Nat) (w : Block) : sitesApplied h (Vector.replicate 4 false) w = w := by
  simp [sitesApplied, siteUnlessDone]

theorem siteUnlessDone_siteUnlessDone_not (h q : Nat) (done : Bool) (w : Block) :
    siteUnlessDone h q done (siteUnlessDone h q (!done) w) = quarterRoundAt h q w := by
  cases done <;> rfl

section
variable {h : Nat} (hh : h < 2)
include hh

/-- Two sites of one round, each applied or not, may be taken in either order (42_quarter_round_engine R85). -/
theorem siteUnlessDone_commute {q q' : Nat} (hq : q < 4) (hq' : q' < 4) (done done' : Bool) :
    Function.Commute (siteUnlessDone h q done) (siteUnlessDone h q' done') := by
  cases done with
  | true => exact fun _ => rfl
  | false => exact fun w => (siteUnlessDone_quarterRoundAt hh hq hq' done' w).symm

/-- One more site applied and marked: its quarter round passes through the sites done that come after it. -/
theorem sitesApplied_set (q : Fin 4) {done : Vector Bool 4} (hfree : done[q] = false) (w : Block) :
    sitesApplied h (done.set q true) w = quarterRoundAt h q.val (sitesApplied h done w) := by
  have hskip (w : Block) : siteUnlessDone h q.val true w = w := rfl
  have hturn (w : Block) : siteUnlessDone h q.val false w = quarterRoundAt h q.val w := rfl
  simp only [sitesApplied]
  fin_cases q <;> simp at hfree <;> simp [siteUnlessDone_quarterRoundAt hh, hskip, hturn, hfree]

/-- The sites done and then the sites left are the whole round: each site left passes inward to its own place, where it is
applied or has been. -/
theorem restOfRound_sitesApplied (done : Vector Bool 4) (w : Block) :
    restOfRound h done (sitesApplied h done w) = restOfRound h (Vector.replicate 4 false) w := by
  have hpass (q q' : Nat) (hq : q < 4 := by decide) (hq' : q' < 4 := by decide) :
      ∀ d d' w, siteUnlessDone h q d (siteUnlessDone h q' d' w) = siteUnlessDone h q' d' (siteUnlessDone h q d w) :=
    siteUnlessDone_commute hh hq hq'
  have hmeet := siteUnlessDone_siteUnlessDone_not h
  rw [restOfRound_none, restOfRound, sitesApplied, hpass 0 3, hpass 0 2, hpass 0 1, hmeet 0, hpass 1 3, hpass 1 2,
    hmeet 1, hpass 2 3, hmeet 2, hmeet 3]

end

/-! ### What a row is expected to hold, PHASE by PHASE -/

theorem expectedRow_col {s : State} (hp : s.phase = .col) (i : Nat) :
    expectedRow s i = some (sitesApplied 0 s.sitesDone (doubleRounds s.rnd.toNat (advanceCounter s.sReg i))) := by
  simp [expectedRow, hp]

theorem expectedRow_diag {s : State} (hp : s.phase = .diag) (i : Nat) :
    expectedRow s i =
      some (sitesApplied 1 s.sitesDone (colround1 (doubleRounds s.rnd.toNat (advanceCounter s.sReg i)))) := by
  simp [expectedRow, hp]

theorem expectedRow_final {s : State} (hp : s.phase = .final) (i : Nat) :
    expectedRow s i = some (doubleRounds 10 (advanceCounter s.sReg i)) := by
  simp [expectedRow, hp]

theorem expectedRow_ser {s : State} (hp : s.phase = .ser) (i : Nat) :
    expectedRow s i = some (blockFunction (advanceCounter s.sReg i)) := by
  simp [expectedRow, hp]

/-- COLROUND leaves the column round done and no site of the diagonal one. -/
theorem expectedRow_columnRound (s : State) (i : Nat) :
    expectedRow (columnRound s) i = some (colround1 (doubleRounds s.rnd.toNat (advanceCounter s.sReg i))) := by
  rw [expectedRow_diag rfl, columnRound_sitesDone, sitesApplied_none]
  rfl

/-- DIAGROUND leaves one more double round done, whether FINAL or another column round follows (42_quarter_round_engine R80). -/
theorem expectedRow_diagonalRound {s : State} (hr : s.rnd.toNat < 10) (i : Nat) :
    expectedRow (diagonalRound s) i = some (doubleRounds (s.rnd.toNat + 1) (advanceCounter s.sReg i)) := by
  by_cases hten : s.rnd + 1 = 10#4
  · have hcount : s.rnd.toNat + 1 = 10 := by bv_omega
    rw [expectedRow_final (by rw [diagonalRound_phase, if_pos hten]), hcount, diagonalRound_sReg]
  · have hcount : (s.rnd + 1).toNat = s.rnd.toNat + 1 := by bv_omega
    rw [expectedRow_col (by rw [diagonalRound_phase, if_neg hten]), diagonalRound_sitesDone, sitesApplied_none,
      diagonalRound_rnd, hcount, diagonalRound_sReg]

/-- A per-site step applies its site to what is expected of the row. -/
theorem expectedRow_quarterRoundSite {s : State} {h : Nat} (hh : h < 2) (q : Fin 4) (hp : s.phase = phaseOfHalf h)
    (hfree : s.sitesDone[q] = false) (i : Nat) :
    expectedRow (quarterRoundSite h q.val q.isLt s) i = (expectedRow s i).map (quarterRoundAt h q.val) := by
  obtain rfl | rfl : h = 0 ∨ h = 1 := by omega
  · rw [expectedRow_col hp, expectedRow_col (s := quarterRoundSite 0 q.val q.isLt s) hp, Option.map_some,
      ← sitesApplied_set hh q hfree]
    rfl
  · rw [expectedRow_diag hp, expectedRow_diag (s := quarterRoundSite 1 q.val q.isLt s) hp, Option.map_some,
      ← sitesApplied_set hh q hfree]
    rfl

/-! ### The block files -/

/-- Where no row holds a value, nothing is asked of W and ORIG. -/
theorem workInv_of_no_rows {s : State} (hp : s.phase = .idle ∨ s.phase = .repl ∨ s.phase = .done ∨ s.phase = .fault) :
    WorkInv s := by
  constructor
  · intro i _ b hb
    rcases hp with hp | hp | hp | hp <;> simp [expectedRow, hp] at hb
  · intro hround
    rcases hp with hp | hp | hp | hp <;> simp [hp] at hround

theorem workInv_issue (c : Word) (s : State) : WorkInv (issue c s) := by
  rcases issue_cases c s with ⟨f, h⟩ | ⟨t, -, -, -, h⟩ <;> rw [h] <;> exact workInv_of_no_rows (by simp)

/-- OUT_CAP and the host's own side are outside the invariant. -/
theorem WorkInv.hostSide {s : State} (h : WorkInv s) (outCap' : Word) (reply' : Reply) (turns' : List Turn) :
    WorkInv { s with outCap := outCap', reply := reply', turns := turns' } :=
  ⟨h.working, h.original⟩

/-- REPL: both files hold `S@i`, and no double round is done (41_state_replicator R71, R75). -/
theorem workInv_replicate (s : State) : WorkInv (replicate s) where
  working i hi b hb := by
    rw [expectedRow_col rfl, replicate_sitesDone, sitesApplied_none, Option.some.injEq] at hb
    exact hb ▸ getElem_replicate_w s hi
  original _ _ hi := getElem_replicate_orig s hi

/-- An operation of a round or FINAL keeps the invariant where `g`, which it does to the rows of W, takes what is expected of
them before to what is expected after. -/
theorem WorkInv.advanced {s t : State} (h : WorkInv s) (hround : s.phase = .col ∨ s.phase = .diag ∨ s.phase = .final)
    (hframe : t = { s with w := t.w, rnd := t.rnd, phase := t.phase, sitesDone := t.sitesDone })
    {g : Fin 16 → Block → Block} (hw : t.w = mapRows (blockCount s.tierl) g s.w)
    (hrow : ∀ i : Fin 16, i.val < blockCount s.tierl → expectedRow t i.val = (expectedRow s i.val).map (g i)) :
    WorkInv t := by
  have hN : t.tierl = s.tierl := by rw [hframe]
  have hS : t.sReg = s.sReg := by rw [hframe]
  have horig : t.orig = s.orig := by rw [hframe]
  constructor
  · intro i hi b hb
    rw [hN] at hi
    obtain ⟨a, ha, rfl⟩ := Option.map_eq_some_iff.1 ((hrow i hi).symm.trans hb)
    rw [hw, getElem_mapRows, if_pos hi, h.working i hi a ha]
  · rw [hN, hS, horig]
    exact fun _ => h.original hround

theorem WorkInv.columned {s : State} (h : WorkInv s) (hp : s.phase = .col) : WorkInv (columnRound s) := by
  refine h.advanced (.inl hp) rfl (columnRound_w s) fun i _ => ?_
  rw [expectedRow_columnRound, expectedRow_col hp, Option.map_some, restOfRound_sitesApplied Nat.two_pos,
    restOfRound_zero_none]

theorem WorkInv.diagonaled {s : State} (h : WorkInv s) (hp : s.phase = .diag) (hr : s.rnd.toNat < 10) :
    WorkInv (diagonalRound s) := by
  refine h.advanced (.inr (.inl hp)) rfl (diagonalRound_w s) fun i _ => ?_
  rw [expectedRow_diagonalRound hr, expectedRow_diag hp, Option.map_some, restOfRound_sitesApplied Nat.one_lt_two,
    restOfRound_one_none]
  rfl

/-- FINAL adds the originals, which ends the block function (43_finalizer_adder R91). -/
theorem WorkInv.fed {s : State} (h : WorkInv s) (hp : s.phase = .final) : WorkInv (feedForward s) := by
  have hround : s.phase = .col ∨ s.phase = .diag ∨ s.phase = .final := .inr (.inr hp)
  refine h.advanced hround rfl (feedForward_w s) fun i hi => ?_
  rw [expectedRow_ser rfl, expectedRow_final hp, Option.map_some, h.original hround i hi]
  rfl

theorem phase_of_phaseOfHalf {s : State} {h : Nat} (hp : s.phase = phaseOfHalf h) : s.phase = .col ∨ s.phase = .diag := by
  rw [hp, phaseOfHalf]
  split <;> simp

theorem WorkInv.siteApplied {s : State} (h : WorkInv s) {half : Nat} (hh : half < 2) (q : Fin 4)
    (hp : s.phase = phaseOfHalf half) (hfree : s.sitesDone[q] = false) :
    WorkInv (quarterRoundSite half q.val q.isLt s) :=
  h.advanced ((phase_of_phaseOfHalf hp).imp_right .inl) rfl rfl fun i _ => expectedRow_quarterRoundSite hh q hp hfree i.val

/-- Every effect keeps the work invariant; the control invariant bounds RND where DIAGROUND counts. -/
theorem WorkInv.effect {s t : State} {i : Instr} (h : WorkInv s) (hc : ControlInv s) (he : Effect s i t) : WorkInv t := by
  cases he with
  | ignored _ _ => exact h
  | issued _ c _ _ => exact workInv_issue c s
  | wroteWord j hj v hr => exact workInv_of_no_rows (hr.imp_right fun hdone => .inr (.inl hdone))
  | wroteCap v _ => exact h.hostSide v _ _
  | replied _ v _ => exact h.hostSide _ v _
  | replicated _ => exact workInv_replicate s
  | columned hp => exact h.columned hp
  | diagonaled hp => exact h.diagonaled hp ((rndInRange_diag hp).1 hc.rounds)
  | fed hp => exact h.fed hp
  | serialized _ => exact workInv_of_no_rows (.inr (.inr (.inl rfl)))
  | site half q hh hq hp hfree => exact h.siteApplied hh ⟨q, hq⟩ hp hfree
  | reset => exact workInv_of_no_rows (.inl rfl)

/-- Settles O50: every effect keeps both invariants, and neither speaks of the turns. -/
theorem stepKeepsTheReferenceComputation : Obligations.StepKeepsTheReferenceComputation := fun _ _ =>
  step_keeps (fun s rest h => ⟨h.control.hostSide s.sReg s.reply rest, h.work.hostSide s.outCap s.reply rest⟩)
    fun _ _ _ h he => ⟨h.control.effect he, h.work.effect h.control he⟩

end Sys2Proof.Machine
end


section
/-! The quarter-round engine: the words of a quarter round, the rounds row by row, and the two vector organisations
(42_quarter_round_engine R78 to R88). -/
namespace Sys2Proof.Machine

/-! ### The words of a quarter round (42_quarter_round_engine R78) -/

section
variable {x z : Fin 16} (hxz : x ≠ z) (w : Block) (y : Fin 16) (n : Nat)
include hxz

theorem addXorRotl_getElem_sum : (addXorRotl w x y z n)[x] = w[x] + w[y] := by
  rw [getElem_addXorRotl w hxz, if_neg hxz, if_pos rfl]

theorem addXorRotl_getElem_rotated : (addXorRotl w x y z n)[z] = rotl (w[z] ^^^ (w[x] + w[y])) n := by
  rw [getElem_addXorRotl w hxz, if_pos rfl]

theorem addXorRotl_getElem_other {j : Fin 16} (hx : j ≠ x) (hz : j ≠ z) : (addXorRotl w x y z n)[j] = w[j] := by
  rw [getElem_addXorRotl w hxz, if_neg hz, if_neg hx]

end

/-- Settles O26: each of the four lines writes two of the words and leaves the others. -/
theorem quarterRoundWords : Obligations.QuarterRoundWords := by
  intro w a b c d hab hac had hbc hbd hcd
  simp only [quarterRound]
  refine ⟨?_, ?_, ?_, ?_, fun j hja hjb hjc hjd => ?_⟩
  all_goals
    simp only [addXorRotl_getElem_sum had, addXorRotl_getElem_sum hbc.symm, addXorRotl_getElem_rotated had,
      addXorRotl_getElem_rotated hbc.symm, addXorRotl_getElem_other had, addXorRotl_getElem_other hbc.symm, ne_eq,
      not_false_eq_true, hab.symm, hac.symm, hbd.symm, hcd.symm, *]

/-! ### The sites of a round (42_quarter_round_engine R85) -/

/-- The four sites of a round partition the sixteen words. -/
theorem existsUnique_site : ∀ (h : Fin 2) (j : Fin 16), ∃ q : Fin 4,
    j ∈ siteWords h q ∧ ∀ q' : Fin 4, j ∈ siteWords h q' → q' = q := by decide

theorem nodup_siteWords : ∀ h < 2, ∀ q < 4, (siteWords h q).Nodup := by decide

/-- Settles O32: the indexes are those of the site table, and the sites commute because they share no word. -/
theorem quarterRoundsOfARoundCommute : Obligations.QuarterRoundsOfARoundCommute :=
  ⟨fun h j => by simpa [siteWords, ExistsUnique] using existsUnique_site h j,
    fun h q => nodup_siteWords h h.isLt q q.isLt, fun h q q' => quarterRoundAt_commute h.isLt q.isLt q'.isLt⟩

/-! ### The rounds, row by row (42_quarter_round_engine R79, R80, R83) -/

section
variable {n : Nat} {f : BlockFile} {i : Fin 16}

theorem getElem_mapRows_of_lt (hi : i.val < n) (g : Fin 16 → Block → Block) : (mapRows n g f)[i] = g i f[i] := by
  rw [getElem_mapRows, if_pos hi]

theorem getElem_mapRows_of_le (hi : n ≤ i.val) (g : Fin 16 → Block → Block) : (mapRows n g f)[i] = f[i] := by
  rw [getElem_mapRows, if_neg (Nat.not_lt.2 hi)]

/-- What is done to every row alike does the same to equal rows, wherever they stand (42_quarter_round_engine R83). -/
theorem getElem_mapRows_eq_of_row {n' : Nat} {f' : BlockFile} {i' : Fin 16} (hi : i.val < n) (hi' : i'.val < n')
    (hrow : f[i] = f'[i']) (g : Block → Block) : (mapRows n (fun _ => g) f)[i] = (mapRows n' (fun _ => g) f')[i'] := by
  rw [getElem_mapRows_of_lt hi, getElem_mapRows_of_lt hi', hrow]

end

theorem exec_colround_inPhase {s : State} (hp : s.phase = .col) : exec .colround s = .next (columnRound s) :=
  coreOperation_inPhase hp _

theorem exec_diaground_inPhase {s : State} (hp : s.phase = .diag) : exec .diaground s = .next (diagonalRound s) :=
  coreOperation_inPhase hp _

/-- Settles O33: both rounds do to every row what the marks leave of the round. -/
theorem rowsAreIndependent : Obligations.RowsAreIndependent := by
  intro s s' i i' hi hi' hrow hmarks
  refine ⟨fun hp hp' => ⟨_, _, exec_colround_inPhase hp, exec_colround_inPhase hp', ?_⟩,
    fun hp hp' => ⟨_, _, exec_diaground_inPhase hp, exec_diaground_inPhase hp', ?_⟩⟩
  · rw [columnRound_w, columnRound_w, hmarks]
    exact getElem_mapRows_eq_of_row hi hi' hrow _
  · rw [diagonalRound_w, diagonalRound_w, hmarks]
    exact getElem_mapRows_eq_of_row hi hi' hrow _

/-- Settles O28: with no site marked, what is left of the round is the whole of it. -/
theorem columnRoundResult : Obligations.ColumnRoundResult := by
  refine fun s hp => ⟨(columnRound s).w, exec_colround_inPhase hp, fun hnone i hi => ?_,
    fun i hi => getElem_mapRows_of_lt hi _, fun i hi => getElem_mapRows_of_le hi _⟩
  rw [columnRound_w, getElem_mapRows_of_lt hi, hnone, restOfRound_zero_none]
  rfl

/-- Settles O29: RND becomes 10 from 9 and from no other value. -/
theorem diagonalRoundResult : Obligations.DiagonalRoundResult := by
  refine fun s hp => ⟨(diagonalRound s).w, (diagonalRound s).phase, exec_diaground_inPhase hp, fun hnine => ?_,
    fun hnine => ?_, fun hnone i hi => ?_, fun i hi => getElem_mapRows_of_lt hi _,
    fun i hi => getElem_mapRows_of_le hi _⟩
  · rw [diagonalRound_phase, if_pos (by rw [hnine]; rfl)]
  · rw [diagonalRound_phase, if_neg (by bv_omega)]
  · rw [diagonalRound_w, getElem_mapRows_of_lt hi, hnone, restOfRound_one_none]
    rfl

/-- Settles O30: QR in its PHASE at an unmarked site leaves `quarterRoundSite`. -/
theorem quarterRoundSiteResult : Obligations.QuarterRoundSiteResult := fun s h q hp hfree =>
  ⟨(quarterRoundSite h.val q.val q.isLt s).w, exec_qr_inPhase h.isLt q hp hfree,
    fun _ hi => getElem_mapRows_of_lt hi _, fun _ hi => getElem_mapRows_of_le hi _⟩

/-! ### Lane operations -/

theorem laneAdd_map {α : Type} (f g : α → Word) (l : List α) : laneAdd (l.map f) (l.map g) = l.map fun x => f x + g x := by
  rw [laneAdd, List.zipWith_map, List.zipWith_self]

theorem laneXorRotl_map {α : Type} (f g : α → Word) (n : Nat) (l : List α) :
    laneXorRotl (l.map f) (l.map g) n = l.map fun x => rotl (f x ^^^ g x) n := by
  rw [laneXorRotl, List.zipWith_map, List.zipWith_self]

/-! ### The word-sliced organisation (42_quarter_round_engine R87) -/

theorem getElem_packSliced (blocks : List Block) (j : Fin 16) : (packSliced blocks)[j] = blocks.map fun w => w[j] := by
  simp [packSliced]

/-- Writing register `x` lane by lane writes word `x` of every block. -/
theorem packSliced_set (blocks : List Block) (x : Fin 16) (f : Block → Word) :
    (packSliced blocks).set x (blocks.map f) = packSliced (blocks.map fun w => w.set x (f w)) := by
  ext1 j hj
  by_cases hjx : x.val = j <;> simp [packSliced, hjx]

/-- One line on the registers is that line on every block. -/
theorem addXorRotlSliced_packSliced (blocks : List Block) (x y z : Fin 16) (n : Nat) :
    addXorRotlSliced (packSliced blocks) x y z n = packSliced (blocks.map (addXorRotl · x y z n)) := by
  have hadd (v : List Block) : (packSliced v).set x (laneAdd (packSliced v)[x] (packSliced v)[y]) =
      packSliced (v.map fun w => w.set x (w[x] + w[y])) := by
    rw [getElem_packSliced, getElem_packSliced, laneAdd_map, packSliced_set]
  have hrot (v : List Block) : (packSliced v).set z (laneXorRotl (packSliced v)[z] (packSliced v)[x] n) =
      packSliced (v.map fun w => w.set z (rotl (w[z] ^^^ w[x]) n)) := by
    rw [getElem_packSliced, getElem_packSliced, laneXorRotl_map, packSliced_set]
  simp only [addXorRotlSliced, hadd, hrot, List.map_map]
  refine congrArg packSliced (List.map_congr_left fun w _ => ?_)
  simp [addXorRotl]

/-- Settles O57: the quarter round is four such lines. -/
theorem slicedOrganisationEqualsDirect : Obligations.SlicedOrganisationEqualsDirect := fun blocks a b c d => by
  simp only [quarterRoundSliced, addXorRotlSliced_packSliced, List.map_map]
  rfl

/-! ### The row organisation (42_quarter_round_engine R86)

The row registers are read lane by lane: one lane of the four registers is the four words of one site, a site of the column
round as the lanes stand, and of the diagonal round once they are rotated. -/

/-- One lane of the row registers A, B, C, D. -/
abbrev Lane := Word × Word × Word × Word

/-- The row registers with the given lanes. -/
def rowsOfLanes (lanes : List Lane) : RowRegs where
  a := lanes.map fun l => l.1
  b := lanes.map fun l => l.2.1
  c := lanes.map fun l => l.2.2.1
  d := lanes.map fun l => l.2.2.2

/-- The words of site `h q`, as a lane (30_encoding R51). -/
def siteLane (h q : Nat) (w : Block) : Lane :=
  (w[(siteIndexes h q).1], w[(siteIndexes h q).2.1], w[(siteIndexes h q).2.2.1], w[(siteIndexes h q).2.2.2])

/-- The lanes of the four sites of round `h`. -/
def siteLanes (h : Nat) (w : Block) : List Lane := [siteLane h 0 w, siteLane h 1 w, siteLane h 2 w, siteLane h 3 w]

/-- The quarter round on the four words of a lane (42_quarter_round_engine R78). -/
def quarterRoundLane (l : Lane) : Lane :=
  let a1 := l.1 + l.2.1
  let d1 := rotl (l.2.2.2 ^^^ a1) 16
  let c1 := l.2.2.1 + d1
  let b1 := rotl (l.2.1 ^^^ c1) 12
  let a2 := a1 + b1
  let d2 := rotl (d1 ^^^ a2) 8
  let c2 := c1 + d2
  (a2, rotl (b1 ^^^ c2) 7, c2, d2)

/-- QRV is the quarter round of every lane. -/
theorem quarterRoundRows_rowsOfLanes (lanes : List Lane) :
    quarterRoundRows (rowsOfLanes lanes) = rowsOfLanes (lanes.map quarterRoundLane) := by
  simp only [quarterRoundRows, rowsOfLanes, laneAdd_map, laneXorRotl_map, List.map_map]
  rfl

section
variable {h q : Nat} (hh : h < 2) (hq : q < 4)
include hh hq

/-- The quarter round at a site works on the site's own lane, and leaves every word outside the site. -/
theorem quarterRoundAt_words (w : Block) :
    siteLane h q (quarterRoundAt h q w) = quarterRoundLane (siteLane h q w) ∧
      ∀ j ∉ siteWords h q, (quarterRoundAt h q w)[j] = w[j] := by
  have hnodup := nodup_siteWords h hh q hq
  simp only [siteWords, List.nodup_cons, List.mem_cons, List.not_mem_nil, or_false, not_or] at hnodup ⊢
  obtain ⟨⟨hab, hac, had⟩, ⟨hbc, hbd⟩, hcd, -⟩ := hnodup
  obtain ⟨ha, hb, hc, hd, hother⟩ := quarterRoundWords w _ _ _ _ hab hac had hbc hbd hcd
  refine ⟨?_, fun j ⟨hja, hjb, hjc, hjd⟩ => hother j hja hjb hjc hjd⟩
  simp only [siteLane, quarterRoundAt, ha, hb, hc, hd, quarterRoundLane]

theorem siteLane_quarterRoundAt_same (w : Block) :
    siteLane h q (quarterRoundAt h q w) = quarterRoundLane (siteLane h q w) :=
  (quarterRoundAt_words hh hq w).1

/-- A quarter round leaves the lanes of the other sites of its round. -/
theorem siteLane_quarterRoundAt_other {q' : Nat} (hq' : q' < 4) (hne : q' ≠ q) (w : Block) :
    siteLane h q' (quarterRoundAt h q w) = siteLane h q' w := by
  have hdisj := List.disjoint_of_nodup_append (nodup_siteWords_append h hh q' hq' q hq hne)
  have hkept (j : Fin 16) (hj : j ∈ siteWords h q') : (quarterRoundAt h q w)[j] = w[j] :=
    (quarterRoundAt_words hh hq w).2 j (hdisj hj)
  simp only [siteLane]
  rw [hkept _ (by simp [siteWords]), hkept _ (by simp [siteWords]), hkept _ (by simp [siteWords]),
    hkept _ (by simp [siteWords])]

end

/-- A round is the quarter round of each of its lanes. -/
theorem siteLanes_restOfRound_none {h : Nat} (hh : h < 2) (w : Block) :
    siteLanes h (restOfRound h (Vector.replicate 4 false) w) = (siteLanes h w).map quarterRoundLane := by
  simp [restOfRound_none, siteLanes, siteLane_quarterRoundAt_same hh, siteLane_quarterRoundAt_other hh]

/-- QRV on the lanes of round `h` of every block is the round of every block. -/
theorem quarterRoundRows_siteLanes {h : Nat} (hh : h < 2) (blocks : List Block) :
    quarterRoundRows (rowsOfLanes (blocks.flatMap (siteLanes h))) =
      rowsOfLanes ((blocks.map (restOfRound h (Vector.replicate 4 false))).flatMap (siteLanes h)) := by
  simp only [quarterRoundRows_rowsOfLanes, List.map_flatMap, List.flatMap_map, siteLanes_restOfRound_none hh]

/-- Unrotated, the lanes are those of the column round. -/
theorem packRows_eq_siteLanes (blocks : List Block) : packRows blocks = rowsOfLanes (blocks.flatMap (siteLanes 0)) := by
  simp only [rowsOfLanes, List.map_flatMap]
  rfl

/-- The lanes rotated for the diagonal round (42_quarter_round_engine R86). -/
def rotateRows (v : RowRegs) : RowRegs := { v with b := laneRotate 1 v.b, c := laneRotate 2 v.c, d := laneRotate 3 v.d }

/-- The lanes rotated back. -/
def unrotateRows (v : RowRegs) : RowRegs := { v with b := laneRotate 3 v.b, c := laneRotate 2 v.c, d := laneRotate 1 v.d }

theorem diagroundRows_eq (v : RowRegs) : diagroundRows v = unrotateRows (quarterRoundRows (rotateRows v)) := rfl

/-- Lanes rotate within the four lanes of a block. -/
theorem laneRotate_flatMap (r : Nat) (blocks : List Block) (x0 x1 x2 x3 : Block → Word) :
    laneRotate r (blocks.flatMap fun w => [x0 w, x1 w, x2 w, x3 w]) =
      blocks.flatMap fun w => laneRotate r [x0 w, x1 w, x2 w, x3 w] := by
  induction blocks with
  | nil => rfl
  | cons w blocks ih => simp [laneRotate, ih]

/-- Rotated, the lanes are those of the diagonal round. -/
theorem rotateRows_packRows (blocks : List Block) :
    rotateRows (packRows blocks) = rowsOfLanes (blocks.flatMap (siteLanes 1)) := by
  simp only [rotateRows, packRows, packRow, laneRotate_flatMap, rowsOfLanes, List.map_flatMap]
  rfl

theorem unrotateRows_siteLanes (blocks : List Block) :
    unrotateRows (rowsOfLanes (blocks.flatMap (siteLanes 1))) = packRows blocks := by
  simp only [unrotateRows, rowsOfLanes, List.map_flatMap, siteLanes, List.map_cons, List.map_nil, laneRotate_flatMap]
  rfl

/-- Settles O56: QRV does the sites of a round side by side, on the lanes as they stand or as they are rotated. -/
theorem rowOrganisationEqualsDirect : Obligations.RowOrganisationEqualsDirect := by
  refine fun blocks => ⟨?_, ?_⟩
  · calc colroundRows (packRows blocks)
        = quarterRoundRows (rowsOfLanes (blocks.flatMap (siteLanes 0))) := by
          rw [colroundRows, packRows_eq_siteLanes]
      _ = packRows (blocks.map colround1) := by
          rw [quarterRoundRows_siteLanes Nat.two_pos, packRows_eq_siteLanes, funext restOfRound_zero_none]
  · calc diagroundRows (packRows blocks)
        = unrotateRows (quarterRoundRows (rowsOfLanes (blocks.flatMap (siteLanes 1)))) := by
          rw [diagroundRows_eq, rotateRows_packRows]
      _ = packRows (blocks.map diaground1) := by
          rw [quarterRoundRows_siteLanes Nat.one_lt_two, unrotateRows_siteLanes, funext restOfRound_one_none]

end Sys2Proof.Machine
end

section
/-! ### FINAL (43_finalizer_adder R91, R92) -/

namespace Sys2Proof.Machine

theorem exec_finalAdd_inPhase {s : State} (hp : s.phase = .final) : exec .finalAdd s = .next (feedForward s) :=
  coreOperation_inPhase hp _

/-- Settles O34: below N a row becomes its sum with its own original, from N up it is kept. -/
theorem feedForwardResult : Obligations.FeedForwardResult := by
  refine fun s hp => ⟨(feedForward s).w, exec_finalAdd_inPhase hp, fun i j hi => ?_, fun i hi => ?_⟩
  · rw [feedForward_w, getElem_mapRows_of_lt hi, getElem_addBlocks]
  · rw [feedForward_w, getElem_mapRows_of_le hi]

end Sys2Proof.Machine
end

section
/-! ### SER: the direct layout, and the lanes of both vector organisations in it (44_output_serializer R95 to R97) -/

namespace Sys2Proof.Machine

theorem exec_ser_inPhase {s : State} (hp : s.phase = .ser) : exec .ser s = .next (serialize s) :=
  coreOperation_inPhase hp _

/-- Byte `k` of word `j` of row `i < N` stands at offset `64i + 4j + k` (44_output_serializer R95). -/
theorem read_serializeRows_word (w : BlockFile) (m : Memory) {n : Nat} {i : Fin 16} (hi : i.val < n) (j : Fin 16)
    (k : Fin 4) :
    (serializeRows w m n).read (64 * i.val + 4 * j.val + k.val) = some ((w[i][j]).extractLsb' (8 * k.val) 8) := by
  have hrow : (64 * i.val + 4 * j.val + k.val) / 64 = i.val := by omega
  have hword : (64 * i.val + 4 * j.val + k.val) % 64 / 4 = j.val := by omega
  have hbyte : (64 * i.val + 4 * j.val + k.val) % 64 % 4 = k.val := by omega
  rw [read_serializeRows, if_pos (by omega)]
  simp only [bytes64, hrow, hword, hbyte, rowAt_of_lt w i.isLt, wordByte_eq_extractLsb', Fin.getElem_fin]

/-- SER keeps every byte above the rows it writes (20_memory R38). -/
theorem read_serializeRows_above (w : BlockFile) (m : Memory) {n a : Nat} (ha : 64 * n ≤ a) :
    (serializeRows w m n).read a = m.read a := by
  rw [read_serializeRows, if_neg (by omega)]

/-- Settles O35: SER leaves `serialize`, whose buffer holds the first N rows in the direct layout. -/
theorem serializeResult : Obligations.SerializeResult := fun s hp =>
  ⟨(serialize s).ks, (serialize s).w, (serialize s).orig, (serialize s).draws, exec_ser_inPhase hp,
    byteCount_toNat s.tierl, fun _ j hi k => read_serializeRows_word s.w s.ks hi j k,
    fun _ ha => read_serializeRows_above s.w s.ks (by omega)⟩

/-- Lane `4g + k` of row register `r` is word `4r + k` of block `g` (42_quarter_round_engine R86). -/
theorem getElem?_packRow (r k : Fin 4) {blocks : List Block} {g : Nat} (hg : g < blocks.length) :
    (packRow r blocks)[4 * g + k.val]? = some ((blocks[g])[4 * r.val + k.val]) := by
  induction blocks generalizing g with
  | nil => exact absurd hg (Nat.not_lt_zero g)
  | cons w blocks ih =>
    cases g with
    | zero =>
      match k with
      | 0 | 1 | 2 | 3 => rfl
    | succ g =>
      have hnext : 4 * (g + 1) + k.val = 4 * g + k.val + 1 + 1 + 1 + 1 := by omega
      rw [hnext]
      exact ih (Nat.lt_of_succ_lt_succ hg)

/-- Lane `g` of register `V[j]` is word `j` of block `g` (42_quarter_round_engine R87). -/
theorem getElem?_packSliced (j : Fin 16) {blocks : List Block} {g : Nat} (hg : g < blocks.length) :
    (packSliced blocks)[j][g]? = some ((blocks[g])[j]) := by
  rw [getElem_packSliced, List.getElem?_map, List.getElem?_eq_getElem hg, Option.map_some]

/-- R96's offset of a row lane is its word's offset in the direct layout. -/
theorem rowLaneOffset_eq (g0 g r k : Nat) : rowLaneOffset g0 g r k = 64 * (g0 + g) + 4 * (4 * r + k) := by
  rw [rowLaneOffset]
  ring

/-- Settles O59: the lanes of both organisations, and their offsets, are those of the words they hold. -/
theorem deinterleavedLanesStandAtTheDirectOffsets : Obligations.DeinterleavedLanesStandAtTheDirectOffsets :=
  fun _ g hg =>
    ⟨fun g0 r k => ⟨getElem?_packRow r k hg, rowLaneOffset_eq g0 g r.val k.val⟩,
      fun j => ⟨getElem?_packSliced j hg, rfl⟩⟩

end Sys2Proof.Machine
end

section
/-! The host's accesses: what a write or a read gives in each PHASE, and which accesses have no meaning (45_host_access R100
to R109). -/
namespace Sys2Proof.Machine

/-! ### The state words, and the answer of a read -/

theorem exec_wrS (s : State) (j : Fin 16) (v : Word) : exec (.wrS j.val v) s = hostWrite s (writeStateWord s j v) :=
  dif_pos j.isLt

theorem exec_rdS (s : State) (j : Fin 16) :
    exec (.rdS j.val) s = hostRead s (if s.sv[j] then .ok (.word s.sReg[j]) else .error .unwrittenStateWord) :=
  dif_pos j.isLt

theorem hostRead_error {s : State} (h : busyFlag s.phase = false) (e : Refusal) :
    hostRead s (.error e) = .refused e := by
  simp [hostRead, h]

theorem exec_rdKs_below {s : State} {off : Word} (h : off.toNat < s.outCap.toNat) :
    exec (.rdKs off) s = hostRead s (.ok (.byte (ksByte s off.toNat))) :=
  congrArg (hostRead s) (if_pos (BitVec.ult_iff_toNat_lt.2 h))

theorem exec_rdKs_past {s : State} {off : Word} (h : s.outCap.toNat ≤ off.toNat) :
    exec (.rdKs off) s = hostRead s (.error .keystreamOffsetOutOfRange) :=
  congrArg (hostRead s) (if_neg (mt BitVec.ult_iff_toNat_lt.1 (Nat.not_lt.2 h)))

/-- A byte that holds a value written to it is no free byte (45_host_access R108). -/
theorem ksByte_of_written {s : State} {off : Nat} {v : Byte} (h : s.ks.read off = some v) : ksByte s off = v := by
  rw [ksByte, h, Option.getD_some]

/-! ### The accesses without meaning (45_host_access R109) -/

/-- A listed packet that is no operation is refused by the name of what is wrong with it. -/
theorem step_undefinedTurn {s : State} {p : Packet} {rest : List Turn} {e : DecodeError}
    (ht : s.turns = .packet p :: rest) (hevent : p ≠ .event 0#1) (hd : decode p = .error e) :
    step s = .refused (.undefinedAccess e) := by
  simp [step, nextPacket_packet ht, hevent, hd]

/-- The HOST codes of R109: an offset that is not a multiple of 4, one at or above 0x50, a write of STATUS or BYTES, a read
of CMD. -/
abbrev isUndefinedCode (code : BitVec 8) : Prop :=
  code &&& 0x03#8 ≠ 0#8 ∨ 0x50 ≤ (code &&& 0x7F#8).toNat ∨ code = 0xC8#8 ∨ code = 0xCC#8 ∨ code = 0x44#8

theorem not_isUndefinedCode_of_onMap : ∀ code : BitVec 8,
    code &&& 0xC3#8 = 0x80#8 ∨ code &&& 0xC3#8 = 0x00#8 ∨ code = 0xC0#8 ∨ code = 0x40#8 ∨ code = 0xC4#8 ∨
      code = 0x48#8 ∨ code = 0x4C#8 → ¬isUndefinedCode code := by
  decide

theorem decodeHost_undefined {code : BitVec 8} (h : isUndefinedCode code) (data : Word) :
    ∃ e, decodeHost code data = .error e := by
  cases hd : decodeHost code data with
  | error e => exact ⟨e, rfl⟩
  | ok i =>
    have honMap := (acceptedHostCodesAreTheRegisterMap code data).1.1 ⟨i, hd⟩
    exact absurd h (not_isUndefinedCode_of_onMap code honMap)

theorem decodeBus_onMap (write : Bool) {off : Nat} (h : off < 0x80) (data : Nat) :
    decodeBus write off 32 data = decodeHost (hostCode write off) (BitVec.ofNat 32 data) := by
  rw [decodeBus, if_neg (not_not.2 rfl), if_neg (Nat.not_le.2 h)]

/-- The register offsets below 0x80 that R109 leaves undefined in one of the two directions. -/
abbrev isUndefinedOffset (write : Bool) (off : Nat) : Prop :=
  off % 4 ≠ 0 ∨ 0x50 ≤ off ∨ (write = true ∧ (off = 0x48 ∨ off = 0x4C)) ∨ (write = false ∧ off = 0x44)

theorem isUndefinedCode_hostCode : ∀ write, ∀ off < 0x80, isUndefinedOffset write off →
    isUndefinedCode (hostCode write off) := by
  decide

/-- A register access of a wrong width or outside the map, or one whose HOST code is undefined (log 15). -/
theorem decodeBus_undefined {write : Bool} {off width : Nat} (data : Nat)
    (h : width ≠ 32 ∨ 0x80 ≤ off ∨ isUndefinedOffset write off) :
    ∃ e, decodeBus write off width data = .error e := by
  by_cases hwidth : width = 32
  · subst hwidth
    by_cases habove : 0x80 ≤ off
    · exact ⟨_, (if_neg (not_not.2 rfl)).trans (if_pos habove)⟩
    · have hmap : off < 0x80 := Nat.not_le.1 habove
      rw [decodeBus_onMap write hmap]
      exact decodeHost_undefined
        (isUndefinedCode_hostCode write off hmap ((h.resolve_left (not_not.2 rfl)).resolve_left habove)) _
  · exact ⟨_, if_pos hwidth⟩

/-- Settles O4: what R109 leaves undefined is off the register map, and RD.KS past OUT_CAP is refused, busy or not. -/
theorem undefinedAccessesAreRefused : Obligations.UndefinedAccessesAreRefused := by
  refine ⟨fun write off width data h => ?_, fun code data h => ?_, fun write off data h => decodeBus_onMap write h data,
    fun s off h => ?_⟩
  · obtain ⟨e, he⟩ := decodeBus_undefined data h
    exact ⟨e, fun s rest ht => step_undefinedTurn ht nofun he⟩
  · obtain ⟨e, he⟩ := decodeHost_undefined h data
    exact ⟨e, fun s rest ht => step_undefinedTurn ht nofun he⟩
  · rw [exec_rdKs_past h]
    cases hb : busyFlag s.phase with
    | true => exact ⟨_, hostRead_busy hb _⟩
    | false => exact ⟨_, hostRead_error hb _⟩

/-! ### The writes -/

/-- Settles O10: at rest the write goes through. -/
theorem writeStateWordResult : Obligations.WriteStateWordResult := fun s j v hr =>
  (exec_wrS s j v).trans (hostWrite_atRest hr _)

/-- Settles O11: at rest the write goes through. -/
theorem writeCapacityResult : Obligations.WriteCapacityResult := fun _ _ hr => hostWrite_atRest hr _

/-- A word in format CMD does what writing it to the command port does (30_encoding R56, R58). -/
theorem exec_decodeCmd (c : Word) (s : State) : exec (decodeCmd c) s = exec (.wrCmd c) s := by
  cases hc : commandTier c with
  | none => rw [decodeCmd, hc]
  | some t =>
    obtain rfl := commandTier_eq_some_iff.1 hc
    cases t <;> rfl

/-- Settles O13: a mnemonic and the port write run one issue, by the tier the word names. -/
theorem mnemonicsAreCommandWrites : Obligations.MnemonicsAreCommandWrites := by
  refine ⟨fun _ => ⟨rfl, rfl, rfl⟩, fun c i hd s => ?_⟩
  obtain rfl := Except.ok.inj hd
  exact exec_decodeCmd c s

/-- Settles O16: in FAULT a host write leaves the state it found. -/
theorem faultIgnoresWrites : Obligations.FaultIgnoresWrites := fun s hf =>
  ⟨fun j v => (exec_wrS s j v).trans (hostWrite_fault hf _), fun _ => hostWrite_fault hf _, fun _ => hostWrite_fault hf _,
    hostWrite_fault hf _, hostWrite_fault hf _, hostWrite_fault hf _⟩

/-- Settles O18: each of these accesses is a guarded write or a guarded read. -/
theorem busyRefusesHostAccesses : Obligations.BusyRefusesHostAccesses := fun s hb =>
  ⟨fun j v => (exec_wrS s j v).trans (hostWrite_busy hb _), fun _ => hostWrite_busy hb _, fun _ => hostWrite_busy hb _,
    fun j => (exec_rdS s j).trans (hostRead_busy hb _), fun _ => hostRead_busy hb _,
    hostRead_busy hb (.ok (.word s.bytes)), hostRead_busy hb (.ok (.word s.outCap)),
    hostWrite_busy hb _, hostWrite_busy hb _, hostWrite_busy hb _⟩

/-! ### The reads -/

/-- A word is the six fields of STATUS joined, taken off one after the other from BUSY up (30_encoding R49). -/
theorem eq_append_iff_statusFields {c : Word} {high : BitVec 24} {code : BitVec 4} {zero err done busy : BitVec 1} :
    c = high ++ code ++ zero ++ err ++ done ++ busy ↔
      c.extractLsb' 8 24 = high ∧ c.extractLsb' 4 4 = code ∧ c.extractLsb' 3 1 = zero ∧ c.extractLsb' 2 1 = err ∧
        c.extractLsb' 1 1 = done ∧ c.extractLsb' 0 1 = busy := by
  rw [eq_append_iff (v := 31) (w := 1), eq_append_iff (v := 30) (w := 1), eq_append_iff (v := 29) (w := 1),
    eq_append_iff (v := 28) (w := 1), eq_append_iff (v := 24) (w := 4)]
  simp [extractLsb'_extractLsb', and_assoc]

theorem getLsbD_of_extractLsb'_one {c : Word} {k : Nat} {b : Bool} (h : c.extractLsb' k 1 = BitVec.ofBool b) :
    c.getLsbD k = b := by
  simpa using congrArg (BitVec.getLsbD · 0) h

theorem busyFlag_iff (p : Phase) :
    busyFlag p = true ↔ p = .repl ∨ p = .col ∨ p = .diag ∨ p = .final ∨ p = .ser := by
  cases p <;> simp [busyFlag]

/-- Settles O19: the answer is the STATUS word, whose flags say PHASE. -/
theorem readStatusResult : Obligations.ReadStatusResult := by
  intro s
  obtain ⟨hhigh, hcode, hzero, herr, hdone, hbusy⟩ := eq_append_iff_statusFields.1 (Eq.refl (statusWord s))
  refine ⟨statusWord s, rfl, hhigh, hcode, getLsbD_of_extractLsb'_one hzero, ?_, ?_, ?_⟩
  · rw [getLsbD_of_extractLsb'_one herr, errFlag, decide_eq_true_iff]
  · rw [getLsbD_of_extractLsb'_one hdone, doneFlag, decide_eq_true_iff]
  · rw [getLsbD_of_extractLsb'_one hbusy, busyFlag_iff]

/-- Settles O21: a read when not BUSY answers. -/
theorem readBytesResult : Obligations.ReadBytesResult := fun _ hb => hostRead_ok hb _

/-- Settles O22: reset leaves the block not BUSY, with OUT_CAP 0. -/
theorem readCapacityResult : Obligations.ReadCapacityResult :=
  ⟨fun _ => rfl, fun _ hb => hostRead_ok hb _, _, hostRead_ok (s := State.reset) rfl _, rfl⟩

/-- Settles O23: SV[j] decides whether the read has a value. -/
theorem readStateWordResult : Obligations.ReadStateWordResult := by
  refine fun s j hb => ⟨fun hwritten => ?_, fun hunwritten => ?_⟩
  · rw [exec_rdS, if_pos hwritten, hostRead_ok hb]
  · rw [exec_rdS, if_neg (Bool.eq_false_iff.1 hunwritten), hostRead_error hb]

/-- Settles O24: the byte is the one the buffer lists, or a free one. -/
theorem readKeystreamResult : Obligations.ReadKeystreamResult := fun s off hb hoff =>
  ⟨ksByte s off.toNat, (exec_rdKs_below hoff).trans (hostRead_ok hb _), fun _ => ksByte_of_written⟩

end Sys2Proof.Machine
end

section
/-! Faults: FAULT is left by RESET only, a busy core takes no fault, and the buffer's size decides between E_BUFFER and
acceptance (60_exceptions R110, R114, R117, R121; 70_reset_and_hazards R137). -/
namespace Sys2Proof.Machine

/-! ### In FAULT -/

/-- The effects that start in FAULT are an ignored write, the answer of a read, and RESET's. -/
theorem Effect.frame_of_fault {s t : State} {i : Instr} (h : Effect s i t) (hf : s.phase = .fault)
    (hreset : i ≠ .reset) : t = { s with reply := t.reply } := by
  cases h with
  | ignored _ _ | replied _ _ _ => rfl
  | issued _ _ _ hr | wroteWord _ _ _ hr | wroteCap _ hr => exact absurd hf (not_fault_of_atRest hr)
  | replicated hp | columned hp | diagonaled hp | fed hp | serialized hp => cases hf.symm.trans hp
  | site _ _ _ _ hp _ => rcases phase_of_phaseOfHalf hp with hp | hp <;> cases hf.symm.trans hp
  | reset => exact absurd rfl hreset

/-- Settles O17: an operation that answers in FAULT has one of the effects that start there. -/
theorem faultIsLeftByResetOnly : Obligations.FaultIsLeftByResetOnly := fun _ _ _ hf hreset hexec =>
  (exec_effect hexec).frame_of_fault hf hreset

/-! ### While BUSY -/

/-- Settles O37: each busy PHASE has its step, which leads to another busy PHASE or to DONE. -/
theorem busyCoreAlwaysSteps : Obligations.BusyCoreAlwaysSteps := by
  intro s hb ht
  cases hp : s.phase with
  | repl => exact ⟨_, step_repl ht hp, by simp⟩
  | col => exact ⟨_, step_col ht hp, by simp⟩
  | diag =>
    refine ⟨_, step_diag ht hp, ?_⟩
    rw [diagonalRound_phase]
    split <;> simp
  | final => exact ⟨_, step_final ht hp, by simp⟩
  | ser => exact ⟨_, step_ser ht hp, by simp⟩
  | idle | done | fault => simp [hp, busyFlag] at hb

/-! ### At rest: the size of the buffer -/

section
variable {c : Word} {k : Tier} (hc : commandTier c = some k) {s : State} (hr : atRest s)
  (hsv : ∀ j : Fin 16, s.sv[j] = true)
include hc hr hsv

theorem exec_wrCmd_undersized (hcap : s.outCap.toNat < blockCount k * 64) :
    ∃ t, exec (.wrCmd c) s = .next t ∧ faultEntered 3#4 s t := by
  obtain ⟨t, hexec, -, hlegal⟩ := commandOutcome s c hr
  obtain ⟨-, hundersized, -⟩ := hlegal k hc
  exact ⟨t, hexec, hundersized hsv hcap⟩

theorem exec_wrCmd_sized (hcap : blockCount k * 64 ≤ s.outCap.toNat) :
    ∃ t, exec (.wrCmd c) s = .next t ∧ t.phase = .repl ∧ t.errcode = s.errcode :=
  ⟨accepted k s, exec_wrCmd_accepted hc ⟨hr, hsv, hcap⟩, rfl, rfl⟩

end

/-- Settles O15: a mnemonic is the write of its own legal word, and 128, 256 and 1024 are `N*64` of the three tiers. -/
theorem bufferBoundary : Obligations.BufferBoundary := fun _ hr hsv =>
  ⟨exec_wrCmd_undersized (c := 0x00000100#32) (k := .narrow) rfl hr hsv,
    exec_wrCmd_sized (c := 0x00000100#32) (k := .narrow) rfl hr hsv,
    exec_wrCmd_undersized (c := 0x00000101#32) (k := .medium) rfl hr hsv,
    exec_wrCmd_sized (c := 0x00000101#32) (k := .medium) rfl hr hsv,
    exec_wrCmd_undersized (c := 0x00000102#32) (k := .wide) rfl hr hsv,
    exec_wrCmd_sized (c := 0x00000102#32) (k := .wide) rfl hr hsv⟩

end Sys2Proof.Machine
end

section
/-! What a command leaves to the next one: the counter the host advances between two commands (70_reset_and_hazards R133), and
the form of the buffer. -/
namespace Sys2Proof.Machine

/-! ### The counter advanced by the host -/

/-- Counter offsets add up (40_generate_command R69). -/
theorem advanceCounter_advanceCounter (s : Block) (m n : Nat) :
    advanceCounter (advanceCounter s m) n = advanceCounter s (m + n) := by
  simp [advanceCounter, BitVec.ofNat_add, BitVec.add_assoc]

/-- From `S@n` on, the keystream is the one of S from block `n` on (40_generate_command R66). -/
theorem keystreamByte_advanceCounter (s : Block) (n a : Nat) :
    keystreamByte (advanceCounter s n) a = keystreamByte s (n * 64 + a) := by
  have hblock : (n * 64 + a) / 64 = n + a / 64 := by omega
  have hbyte : (n * 64 + a) % 64 = a % 64 := by omega
  simp only [keystreamByte, advanceCounter_advanceCounter, hblock, hbyte]

/-- Writing a state word takes none of the premises of a command away. -/
theorem commandReady_writeStateWord {k : Tier} {s : State} (h : commandReady k s) (j : Fin 16) (v : Word) :
    commandReady k (writeStateWord s j v) := by
  obtain ⟨hrest, hsv, hcap⟩ := h
  refine ⟨hrest, fun i => ?_, hcap⟩
  rw [writeStateWord_sv, Fin.getElem_fin, Vector.getElem_set]
  split
  · rfl
  · exact hsv i

/-- `s` after the host's WR.S 12 of the counter increased by `n` (70_reset_and_hazards R133). -/
def counterAdvanced (n : Nat) (s : State) : State := writeStateWord s 12 (s.sReg[12] + BitVec.ofNat 32 n)

theorem counterAdvanced_sReg (n : Nat) (s : State) : (counterAdvanced n s).sReg = advanceCounter s.sReg n := rfl

theorem exec_wrS_counter {s : State} (hr : atRest s) (n : Nat) :
    exec (.wrS 12 (s.sReg[12] + BitVec.ofNat 32 n)) s = .next (counterAdvanced n s) :=
  writeStateWordResult s 12 _ hr

theorem commandReady_counterAdvanced {k : Tier} {s : State} (h : commandReady k s) (n : Nat) :
    commandReady k (counterAdvanced n s) :=
  commandReady_writeStateWord h 12 _

/-- Settles O43: the second command starts from `S@N` of the first one's `N`, where the larger one has come to. -/
theorem advancedCounterContinuesTheKeystream : Obligations.AdvancedCounterContinuesTheKeystream := by
  intro s s' c1 c2 c k1 k2 k hc1 hc2 hc hr1 ⟨_, hfit⟩ hr ht ht' hS hN
  have hend : commandReady k2 (commandEnd (accepted k1 s)) := ⟨.inr rfl, hfit⟩
  have hready := commandReady_counterAdvanced hend (blockCount k1)
  refine ⟨_, _, _, _, commandRun_of_ready hc1 hr1 ht, exec_wrS_counter hend.1 _,
    commandRun_of_ready hc2 hready ht, commandRun_of_ready hc hr ht',
    fun a ha => ⟨_, read_commandEnd_accepted_of_lt k1 s ha, ?_⟩,
    fun a ha => ⟨_, read_commandEnd_accepted_of_lt k2 _ ha, ?_⟩⟩
  · rw [hS]
    exact read_commandEnd_accepted_of_lt k s' (by omega)
  · rw [counterAdvanced_sReg, keystreamByte_advanceCounter, commandEnd_sReg, accepted_sReg, hS]
    exact read_commandEnd_accepted_of_lt k s' (by omega)

/-! ### The form of the buffer -/

/-- SER writes in the canonical form, RESET keeps it or empties the list, and no other effect reaches the buffer. -/
theorem Effect.ks_wf {s t : State} {i : Instr} (hks : s.ks.wf) (he : Effect s i t) : t.ks.wf := by
  cases he with
  | serialized _ => exact wf_serializeRows hks s.w _
  | reset => exact wf_bufferAfterReset hks
  | issued _ c _ _ => rwa [issue_ks]
  | _ => exact hks

/-- Settles O48: taking a turn does not reach the buffer, and every effect keeps its form. -/
theorem bufferStaysCanonical : Obligations.BufferStaysCanonical := fun _ _ =>
  step_keeps (P := fun s => s.ks.wf) (fun _ _ h => h) fun _ _ _ => Effect.ks_wf

end Sys2Proof.Machine
end

section
/-! The reset event, in any PHASE, and the command after it (70_reset_and_hazards R126, R128). -/
namespace Sys2Proof.Machine

/-- Settles O53: outside a command RESET keeps the buffer and its epoch. -/
theorem resetResult : Obligations.ResetResult := by
  intro s
  refine ⟨_, _, _, _, (bufferAfterReset s).1, _, (bufferAfterReset s).2, rfl, fun hb => ?_⟩
  rw [bufferAfterReset_rest hb]
  exact ⟨rfl, rfl⟩

/-- Settles O54: RESET leaves the block at rest, with no state word written. -/
theorem commandAfterResetFaults : Obligations.CommandAfterResetFaults := by
  intro s c k hc
  obtain ⟨t, hexec, -, hlegal⟩ := commandOutcome (resetBlock s) c (.inl rfl)
  obtain ⟨hincomplete, -⟩ := hlegal k hc
  exact ⟨resetBlock s, t, rfl, hexec, hincomplete ⟨0, rfl⟩⟩

end Sys2Proof.Machine
end
